-- ==== Sys2Proof/Word.lean ====
section
/-! DEFINITION. The word types of the block (spec/00_scope.md rule R9). -/

namespace Sys2Proof

/-- One message byte, the block's input symbol (R8 `DATA_W`). -/
abbrev Byte := BitVec 8

/-- The width of `crc`, of a table entry and of the result (R8 `WIDTH`, `TABLE_W`). -/
abbrev Word := BitVec 16

/-- A command word `W[9:0]` (R8 `CMD_W`, R38). -/
abbrev CmdWord := BitVec 10

end Sys2Proof
end

