-- ==== Sys2Proof/Machine/Operands.lean ====
section
/-! DEFINITION. The operand forms: bytes of a 16-bit value, and where a byte meets the accumulator
(R9, R10, R41). -/

namespace Sys2Proof.Machine

/-- The low byte `v[7:0]` (R9). -/
def lowByte (v : Word) : Byte := v.extractLsb' 0 8

/-- The high byte `v[15:8]` (R9). -/
def highByte (v : Word) : Byte := v.extractLsb' 8 8

/-- The concatenation `{hi, lo}`, `hi` in the more significant position (R9). -/
def joinBytes (hi lo : Byte) : Word := hi ++ lo

/-- `zext_16(b) = {0x00, b}` (R10). -/
def zext16 (b : Byte) : Word := b.setWidth 16

/-- The table index `c[7:0] ^ b` (R48, R59): bit `b[k]` meets `c[k]` (R28, R41). -/
def tableIndex (c : Word) (b : Byte) : Byte := lowByte c ^^^ b

end Sys2Proof.Machine
end

