-- ==== Sys2Proof/Config.lean ====
section
/-! DEFINITION. The parameters of the block (R8), all fixed but `POWER_ON_CRC`, and the free values. -/

namespace Sys2Proof

/-- `POLY`: the polynomial constant in reflected (right-shift) form (R8). -/
def Config.poly : Word := 0xA001#16

/-- `SEED`: the value of `crc` before the first byte of a message (R8). -/
def Config.seed : Word := 0xFFFF#16

/-- `POWER_ON_CRC` (R8, R95, U1): what `crc` holds at the n-th power-on, before any Reset step, INIT or
INITUPD. A free value: it has no body, so no proof can see what it is. -/
opaque Config.powerOnCrc : Nat → Word

/-- A free value: the `rst` input at a step whose input is not placed in `State.inputs`
(R94 and R105 let it be either at any step; log entry 2). -/
opaque Config.freeRst : Nat → Bool

/-- A free value: the command word at a step whose input is not placed in `State.inputs`
(R105: the host may present any command word at any step; log entry 2). -/
opaque Config.freeWord : Nat → CmdWord

end Sys2Proof
end

