-- ==== Sys2Proof/Syntax.lean ====
section
/-! DEFINITION. The commands of the block, one constructor per row of spec/opcode_table.json (R40). -/

namespace Sys2Proof

/-- A command. HOLD and INIT carry no operand: their `data` field is ignored (R42, R45). -/
inductive Instr
  | hold                 -- HOLD (R50)
  | init                 -- INIT (R51)
  | upd (b : Byte)       -- UPD b (R52)
  | initupd (b : Byte)   -- INITUPD b (R53)
deriving DecidableEq, Repr

end Sys2Proof
end

