-- ==== Sys2Proof/WellFormed.lean ====
section
/-! DEFINITION. Which commands and command words are well-formed. -/

namespace Sys2Proof

/-- Every command is well-formed: no command is illegal or reserved and every byte is a legal operand
(R42, R52), and the operand's type holds exactly the bytes. -/
def Instr.wf : Instr → Bool
  | .hold => true
  | .init => true
  | .upd _ => true
  | .initupd _ => true

/-- The check an assembler's output meets (R42, R45): a word is canonical when `W[8] = 1` or
`W[7:0] = 0x00`. A word that fails it is legal all the same; its `data` field is ignored. -/
def isCanonicalWord (w : CmdWord) : Bool :=
  w.getLsbD 8 || w.extractLsb' 0 8 == 0x00#8

end Sys2Proof
end

