-- ==== Sys2Proof/Decode.lean ====
section
/-! DEFINITION. The command word, its decoder and its encoder (spec/30_encoding.md R38, R40, R45).
The decoder is total and never answers "invalid" (R42), so it has nothing to reject. -/

namespace Sys2Proof

/-- The command word of a step from its ports: `W[9:0] = {init, en, data[7:0]}` (R38). -/
def commandWord (init en : Bool) (data : Byte) : CmdWord :=
  BitVec.ofBool init ++ BitVec.ofBool en ++ data

/-- `W[9] = init` (R38). -/
def wordInit (w : CmdWord) : Bool := w.getLsbD 9

/-- `W[8] = en` (R38). -/
def wordEn (w : CmdWord) : Bool := w.getLsbD 8

/-- `W[7:0] = data`, taken as it stands (R38, R41). -/
def wordData (w : CmdWord) : Byte := w.extractLsb' 0 8

/-- `decode(W)` (R45). -/
def decode (w : CmdWord) : Instr :=
  match wordInit w, wordEn w with
  | false, false => .hold
  | true,  false => .init
  | false, true  => .upd (wordData w)
  | true,  true  => .initupd (wordData w)

/-- The operand field of an encoded word: `b` in `W[7:0]`, zeros above it (R41). -/
def operandField (b : Byte) : CmdWord := b.setWidth 10

/-- `encode`: the canonical word of a command (R40, R45). -/
def encode : Instr → CmdWord
  | .hold      => 0x000#10
  | .init      => 0x200#10
  | .upd b     => 0x100#10 + operandField b
  | .initupd b => 0x300#10 + operandField b

/-- The `mask` column of the opcode map, the same for its four rows (R40). -/
def opcodeMask : CmdWord := 0x300#10

/-- The `match` column of the opcode map (R40). -/
def opcodeMatch : Instr → CmdWord
  | .hold      => 0x000#10
  | .init      => 0x200#10
  | .upd _     => 0x100#10
  | .initupd _ => 0x300#10

/-- The ten command lines of an instruction given as a number whose bit 0 is the word's bit 0: its low
`nbits` bits, the bits above them 0. The block has no line for a bit above `W[9]`, so such a bit is
dropped (log entry 6). -/
def tableWord (nbits w : Nat) : CmdWord := BitVec.ofNat 10 (w % 2 ^ nbits)

/-- The instruction the decoder reads from an instruction whose bits are `w`, numbered as
spec/opcode_table.json numbers them. -/
def decodeTableWord (nbits w : Nat) : Option Instr :=
  some (decode (tableWord nbits w))

end Sys2Proof
end

