-- ==== Sys2Proof/Machine/State.lean ====
section
/-! DEFINITION. The state of the block, what a step can answer, and the state after reset
(spec/10_state.md). -/

namespace Sys2Proof.Machine

/-- The full input of one step: the pair `(rst, W)` (R38, R44). -/
structure StepInput where
  /-- The reset request; when 1 the step is a Reset step and the word is ignored (R44). -/
  rst : Bool
  /-- The command word `{init, en, data[7:0]}` (R38). -/
  word : CmdWord
deriving DecidableEq, Repr

/-- The whole state of the block is `crc` (R12, R18). The other two fields are the MODEL'S OWN: they say
what stands on the input ports at the coming steps (log entries 1 and 2). -/
structure State where
  /-- The running CRC accumulator `crc[15:0]` (R12). -/
  crc : Word
  /-- What the host is known to present at the coming steps, the next step's input first (R104). -/
  inputs : List StepInput
  /-- How many step inputs have been drawn from the free values of Config. -/
  freeDraws : Nat
deriving DecidableEq, Repr

/-- The reasons a step can stop with a fault. There are none: the block raises no exception and has no
fault outcome (R81, R82). -/
inductive Fault
deriving DecidableEq, Repr

/-- The reasons a step can be refused. The block has no refusal outcome (R81). -/
inductive Refusal
  /-- The instruction has no meaning in the model yet. Raised by an arm of `exec` alone, and safe (the
  machine stops where the hardware goes on); no arm of this model raises it. -/
  | notModelled (mnemonic : String)
deriving DecidableEq, Repr

/-- The block right after a Reset step: `crc` is 0xFFFF (R19, R93). Nothing is placed on the input ports
(log entries 1 and 2). -/
def State.reset : State where
  crc := Config.seed
  inputs := []
  freeDraws := 0

end Sys2Proof.Machine
end

