-- ==== Sys2Proof/Machine/Flags.lean ====
section
/-! DEFINITION. The outputs of the block, functions of `crc` alone (R13, R14, R16, R39). `zero` is its only
flag; no command reads it. -/

namespace Sys2Proof.Machine

/-- `crc_out = crc` (R13). -/
def crcOut (s : State) : Word := s.crc

/-- `crc_wire = {crc[7:0], crc[15:8]}`, the CRC bytes in transmission order (R14). -/
def crcWire (s : State) : Word := joinBytes (lowByte s.crc) (highByte s.crc)

/-- `zero = (crc == 0x0000)` (R16). -/
def zeroFlag (s : State) : Bool := s.crc == 0x0000#16

/-- The observation of a state: the triple `(crc_out, crc_wire, zero)` (R104). -/
structure Observation where
  crcOut : Word
  crcWire : Word
  zero : Bool
deriving DecidableEq, Repr

/-- What the host sees on the outputs (R39, R104). -/
def observe (s : State) : Observation where
  crcOut := crcOut s
  crcWire := crcWire s
  zero := zeroFlag s

end Sys2Proof.Machine
end

