-- ==== Sys2Proof/Machine/Ops.lean ====
section
/-! DEFINITION. The named operations over the state: the register, the step's input, the Reset step,
power-on. There is no exception to take or to return from (R82 to R86). -/

namespace Sys2Proof.Machine

/-- The read of the block's only register (R11). -/
def State.readCrc (s : State) : Word := s.crc

/-- `crc <- v` (R11): the write of the block's only register. -/
def State.writeCrc (s : State) (v : Word) : State := { s with crc := v }

/-- What stands on the input ports at this step (R38): the head of the placed inputs; where nothing is
placed, a free input, since the host may present anything (R105; log entry 2). -/
def State.presented (s : State) : StepInput :=
  match s.inputs with
  | x :: _ => x
  | [] => { rst := Config.freeRst s.freeDraws, word := Config.freeWord s.freeDraws }

/-- The step's input is sampled once (R38): the next step sees the next input. -/
def State.takeInput (s : State) : State :=
  match s.inputs with
  | _ :: rest => { s with inputs := rest }
  | [] => { s with freeDraws := s.freeDraws + 1 }

/-- The Reset step: `crc <- 0xFFFF` and nothing else (R93). -/
def State.resetStep (s : State) : State := s.writeCrc Config.seed

/-- The block at its n-th power-on, before any step (R19, R95): `crc` is the open parameter
`POWER_ON_CRC` (log entry 3). -/
def State.powerOn (n : Nat) : State where
  crc := Config.powerOnCrc n
  inputs := []
  freeDraws := 0

end Sys2Proof.Machine
end

