-- ==== Sys2Proof/Machine/Update.lean ====
section
/-! DEFINITION. The byte-at-a-time update of the accumulator in its three forms, and its inverse
(spec/40_commands.md R48, R54, R57; spec/41_message_operations.md R63 to R65). The commands use the
table form; the others are the presentations the spec says are equal to it. -/

namespace Sys2Proof.Machine

/-- `crc_update(c, b)`, the table form (R48). -/
def crcUpdate (c : Word) (b : Byte) : Word :=
  (c >>> 8) ^^^ tableRead (tableIndex c b)

/-- `step1(v)`: one step of polynomial division in reflected form (R63). -/
def step1 (v : Word) : Word :=
  if v.getLsbD 0 then (v >>> 1) ^^^ Config.poly else v >>> 1

/-- `step8(v)`: eight applications of `step1` (R64). -/
def step8 (v : Word) : Word :=
  step1 (step1 (step1 (step1 (step1 (step1 (step1 (step1 v)))))))

/-- `crc_bitwise_update(c, b)`, the bitwise form (R65). -/
def crcBitwiseUpdate (c : Word) (b : Byte) : Word :=
  step8 (c ^^^ zext16 b)

/-- The parallel XOR equations (R54): bits `n0` to `n15` of the next accumulator, least significant
first. -/
def xorEquations (c : Word) (b : Byte) : List Bool :=
  let e (k : Nat) : Bool := c.getLsbD k ^^ b.getLsbD k
  [ e 0 ^^ e 1 ^^ e 2 ^^ e 3 ^^ e 4 ^^ e 5 ^^ e 6 ^^ e 7 ^^ c.getLsbD 8,
    c.getLsbD 9,
    c.getLsbD 10,
    c.getLsbD 11,
    c.getLsbD 12,
    c.getLsbD 13,
    e 0 ^^ c.getLsbD 14,
    e 0 ^^ e 1 ^^ c.getLsbD 15,
    e 1 ^^ e 2,
    e 2 ^^ e 3,
    e 3 ^^ e 4,
    e 4 ^^ e 5,
    e 5 ^^ e 6,
    e 6 ^^ e 7,
    e 0 ^^ e 1 ^^ e 2 ^^ e 3 ^^ e 4 ^^ e 5 ^^ e 6,
    e 0 ^^ e 1 ^^ e 2 ^^ e 3 ^^ e 4 ^^ e 5 ^^ e 6 ^^ e 7 ]

/-- The update as a network of XOR gates (R54). -/
def crcXorUpdate (c : Word) (b : Byte) : Word :=
  BitVec.ofBoolListLE (xorEquations c b)

/-- The index whose table entry has the high byte `h` (R57): the position in the ROM of the first such
entry; by fact 4 of R25 there is exactly one. -/
def tableIndexOfHigh (h : Byte) : Byte :=
  BitVec.ofNat 8 (tableRom.findIdx fun v => highByte v == h)

/-- `crc_unupdate(n, b)` (R57): the accumulator that `b` takes to `n`. -/
def crcUnupdate (n : Word) (b : Byte) : Word :=
  let idx := tableIndexOfHigh (highByte n)
  joinBytes (lowByte (n ^^^ tableRead idx)) (idx ^^^ b)

end Sys2Proof.Machine
end

