-- ==== Sys2Proof/Machine/Commands.lean ====
section
/-! DEFINITION. The meanings of the four commands (spec/40_commands.md R50 to R53). -/

namespace Sys2Proof.Machine

/-- HOLD: `crc <- crc` (R50). -/
def execHold (s : State) : Host.Outcome State Fault Refusal :=
  .next s

/-- INIT: `crc <- 0xFFFF` (R51). -/
def execInit (s : State) : Host.Outcome State Fault Refusal :=
  .next (s.writeCrc Config.seed)

/-- UPD b: `crc <- crc_update(crc, b)` (R52). -/
def execUpd (b : Byte) (s : State) : Host.Outcome State Fault Refusal :=
  .next (s.writeCrc (crcUpdate s.readCrc b))

/-- INITUPD b: `crc <- crc_update(0xFFFF, b)` (R53). -/
def execInitupd (b : Byte) (s : State) : Host.Outcome State Fault Refusal :=
  .next (s.writeCrc (crcUpdate Config.seed b))

end Sys2Proof.Machine
end

