-- ==== Sys2Proof/Machine/Dispatch.lean ====
section
/-! DEFINITION. One arm per command (R49). -/

namespace Sys2Proof.Machine

def exec (i : Instr) (s : State) : Host.Outcome State Fault Refusal :=
  match i with
  | .hold => Sys2Proof.Machine.execHold s
  | .init => Sys2Proof.Machine.execInit s
  | .upd b => Sys2Proof.Machine.execUpd b s
  | .initupd b => Sys2Proof.Machine.execInitupd b s

end Sys2Proof.Machine
end

