-- ==== Sys2Proof/Machine/Step.lean ====
section
/-! DEFINITION. One step of the block (R49): the Reset step if `rst` is 1, else the command its word
decodes to. -/

namespace Sys2Proof.Machine

/-- `step(crc, rst, W)` (R49), on the input that stands on the ports. `rst` has precedence over the
command (R44, R84). -/
def step (s : State) : Host.Outcome State Fault Refusal :=
  if s.presented.rst then .next s.takeInput.resetStep
  else exec (decode s.presented.word) s.takeInput

/-- `s` with the instruction `w` presented at the next step, `rst` at 0; whatever was placed comes after
it (log entry 4). -/
def State.withFetchWord (s : State) (nbits w : Nat) : State :=
  { s with inputs := { rst := false, word := tableWord nbits w } :: s.inputs }

end Sys2Proof.Machine
end

