-- ==== Sys2Proof/Machine/Message.lean ====
section
/-! DEFINITION. The message level over byte sequences (spec/41_message_operations.md R67, R71 to R74). -/

namespace Sys2Proof.Machine

/-- `crc16_from(c0, B)`: the fold of the update started at `c` (R67). -/
def crc16From (c : Word) (bs : List Byte) : Word := bs.foldl crcUpdate c

/-- `crc16(B)`: the fold started at the seed, with no final XOR, reflection or byte swap (R67). -/
def crc16 (bs : List Byte) : Word := crc16From Config.seed bs

/-- The same fold with the bitwise update: no table is read (R71). -/
def crc16Bitwise (bs : List Byte) : Word := bs.foldl crcBitwiseUpdate Config.seed

/-- The two CRC bytes in the order sent, low byte first (R29). -/
def crcBytes (r : Word) : List Byte := [lowByte r, highByte r]

/-- The frame of a message: its bytes and its two CRC bytes (R72). -/
def frameOf (data : List Byte) : List Byte := data ++ crcBytes (crc16 data)

/-- VERIFY by comparison: `{frame[m-1], frame[m-2]}` against the CRC of the bytes before them. A frame of
fewer than 2 bytes has no CRC field and is rejected (R73). -/
def verifyByComparison (frame : List Byte) : Bool :=
  match frame.drop (frame.length - 2) with
  | [lo, hi] => crc16 (frame.take (frame.length - 2)) == joinBytes hi lo
  | _ => false

/-- VERIFY by residue: the CRC over the whole frame is 0x0000 (R74). A frame of fewer than 2 bytes is
rejected without consulting the block (R73, D16; log entry 8). -/
def verifyByResidue (frame : List Byte) : Bool :=
  decide (2 ≤ frame.length) && crc16 frame == 0x0000#16

end Sys2Proof.Machine
end

