-- ==== Sys2Proof/Machine/Buffer.lean ====
section
/-! DEFINITION. The host's byte buffer (address space B, spec/20_memory.md R20, R26) and the source's
entry points over it (spec/41_message_operations.md R68 to R74, R76). The block never reads or writes
it, so it is no part of State: it is an argument here (log entry 5). -/

namespace Sys2Proof.Machine

/-- One byte buffer of the host: where it begins and its bytes in index order (R20, R26). Its extent is
the addresses `base` to `base + bytes.length - 1`. -/
structure Buffer where
  base : Nat
  bytes : List Byte
deriving DecidableEq, Repr

/-- The `n` addresses from `a` on lie wholly inside the buffer (R76, U2). -/
abbrev Buffer.holds (b : Buffer) (a n : Nat) : Prop :=
  b.base ≤ a ∧ a + n ≤ b.base + b.bytes.length

/-- The host's memory: its readable buffers. An address in none of them is unreadable. Buffers that abut
stay two buffers. The form is a DESIGN CHOICE (log entry 5; unsafe where addresses could wrap). -/
abbrev Memory := List Buffer

/-- The canonical form: no buffer is empty, and each begins at or above the end of the one before it.
That none overlap is a DESIGN CHOICE (log entry 13, unsafe where a host's buffers share bytes). -/
abbrev Memory.wf (m : Memory) : Prop :=
  (∀ b ∈ m, b.bytes ≠ []) ∧ m.Pairwise fun b c => b.base + b.bytes.length ≤ c.base

/-- The range is wholly inside a readable buffer, and that is one buffer (R76, U2). -/
abbrev Memory.inside (m : Memory) (a n : Nat) : Prop := ∃ b ∈ m, b.holds a n

/-- Why a message-level call has no meaning (R76, R80, U2). It is the call that is refused; the block
is not involved, and stopping is safe. -/
inductive CallRefusal
  /-- A null buffer with a non-zero length. -/
  | nullBuffer
  /-- The range asked for is not wholly inside a readable buffer: an address of it is in none, or it runs
  from one buffer into another. -/
  | outsideBuffer
deriving DecidableEq, Repr

/-- The buffer a range is wholly inside, if there is one. In a canonical memory at most one holds a range
that is not empty; in any other the first of the list is taken (DESIGN CHOICE, log entry 13, unsafe). -/
def bufferOf (m : Memory) (a n : Nat) : Option Buffer := m.find? fun b => decide (b.holds a n)

/-- `MemRead(a, 1)`: the byte at `a`, if `a` is in a readable buffer (R26). -/
def memRead (m : Memory) (a : Nat) : Option Byte :=
  match bufferOf m a 1 with
  | some b => b.bytes[a - b.base]?
  | none => none

/-- `MemWrite(a, 1, v)`: the byte at `a` replaced, if `a` is in a buffer (R72). -/
def memWrite : Memory → Nat → Byte → Option Memory
  | [], _, _ => none
  | b :: m, a, v =>
    if b.holds a 1 then some ({ b with bytes := b.bytes.set (a - b.base) v } :: m)
    else match memWrite m a v with
      | some m' => some (b :: m')
      | none => none

/-- The `n` bytes from `a` on in ascending order, and no other, if they are wholly inside a readable
buffer (R26, R76). -/
def memReadRange (m : Memory) (a n : Nat) : Option (List Byte) :=
  match bufferOf m a n with
  | some b => some ((b.bytes.drop (a - b.base)).take n)
  | none => none

/-- The bytes a call `(buf, length)` computes over; `none` is the null pointer. With length 0 nothing is
read, whatever the pointer; a null buffer, or a range not wholly inside a readable buffer, refuses the call
(R76, U2). -/
def bufferBytes (m : Memory) : Option Nat → Nat → Except CallRefusal (List Byte)
  | _, 0 => .ok []
  | none, _ + 1 => .error .nullBuffer
  | some a, n + 1 =>
    match memReadRange m a (n + 1) with
    | some bs => .ok bs
    | none => .error .outsideBuffer

/-- `ModbusCRC_CheckTable(buffer, length)` (R68): the raw CRC over exactly `length` bytes. -/
def modbusCrcCheckTable (m : Memory) (buf : Option Nat) (length : Nat) : Except CallRefusal Word :=
  (bufferBytes m buf length).map crc16

/-- `ModbusCRC_CheckTableAbs(buffer, length)` (R69): the same function as `ModbusCRC_CheckTable`. -/
def modbusCrcCheckTableAbs (m : Memory) (buf : Option Nat) (length : Nat) : Except CallRefusal Word :=
  (bufferBytes m buf length).map crc16

/-- `ModbusCRC_Calc(buffer, length)` (R71): the bitwise computation. -/
def modbusCrcCalc (m : Memory) (buf : Option Nat) (length : Nat) : Except CallRefusal Word :=
  (bufferBytes m buf length).map crc16Bitwise

/-- APPEND (R72): the CRC of the `n` bytes at `frame`, written behind them, low byte first. The frame
buffer holds the data and the room for two more bytes, so the call is refused where these `n + 2` places
are not wholly inside a readable buffer (DEDUCED from R72, log entry 5, safe). -/
def appendCrc (m : Memory) (frame n : Nat) : Except CallRefusal Memory :=
  match memReadRange m frame (n + 2) with
  | none => .error .outsideBuffer
  | some bs =>
    let r := crc16 (bs.take n)
    match memWrite m (frame + n) (lowByte r) with
    | none => .error .outsideBuffer
    | some m' =>
      match memWrite m' (frame + n + 1) (highByte r) with
      | none => .error .outsideBuffer
      | some m'' => .ok m''

/-- VERIFY by comparison of the frame of `length` bytes at `buf` (R73). DESIGN CHOICE (log entry 12, safe):
a null or unreadable buffer is refused first (R76), and only a frame that can be read is rejected for
having fewer than 2 bytes; so a frame of length 1 at such a pointer is refused, not rejected. -/
def bufferVerifyByComparison (m : Memory) (buf : Option Nat) (length : Nat) : Except CallRefusal Bool :=
  (bufferBytes m buf length).map verifyByComparison

/-- VERIFY by residue of the frame of `length` bytes at `buf` (R74). DESIGN CHOICE (log entry 12, safe): the
refusal of a null or unreadable buffer comes first, as in `bufferVerifyByComparison`. -/
def bufferVerifyByResidue (m : Memory) (buf : Option Nat) (length : Nat) : Except CallRefusal Bool :=
  (bufferBytes m buf length).map verifyByResidue

end Sys2Proof.Machine
end

