-- ==== Sys2Proof/Machine/Run.lean ====
section
/-! DEFINITION. The run of the block as the spec writes it down (spec/40_commands.md R49, last sentence;
spec/70_reset_and_hazards.md R104): a second presentation of the step, on `crc` and one input alone. The
machine does not use it; claims say that the two agree. -/

namespace Sys2Proof.Machine

/-- The input of a step that presents a command, `rst` at 0. -/
def commandInput (i : Instr) : StepInput := { rst := false, word := encode i }

/-- The input of a Reset step with the word `w` on the ports (R44). -/
def resetInput (w : CmdWord) : StepInput := { rst := true, word := w }

/-- The next `crc` as one expression of `crc`, `rst` and `W` (R49, "Equivalently, as one expression"). -/
def nextCrc (c : Word) (x : StepInput) : Word :=
  if x.rst || wordInit x.word then
    if wordEn x.word && !x.rst then crcUpdate Config.seed (wordData x.word) else Config.seed
  else
    if wordEn x.word then crcUpdate c (wordData x.word) else c

/-- `crc_N`: the inputs applied in order to the launch state `crc_0` (R104). -/
def runCrc (c : Word) (xs : List StepInput) : Word := xs.foldl nextCrc c

/-- `k` steps of the machine. -/
def runSteps (k : Nat) (s : State) : Host.Outcome State Fault Refusal := Sys2Proof.core.run k s

/-- The observation after each of the first `k` steps of the machine (R104). -/
def observations (s : State) : Nat → List Observation
  | 0 => []
  | k + 1 =>
    match step s with
    | .next t => observe t :: observations t k
    | .fault _ => []
    | .refused _ => []

end Sys2Proof.Machine
end

