-- ==== Sys2Proof/Machine/Listing.lean ====
section
/-! DEFINITION. Assembler text and pseudo-instructions (spec/30_encoding.md R46, R47), and the
disassembler R42 speaks of. Text is a list of characters. -/

namespace Sys2Proof.Machine

/-- What one line of a listing says (R46, R47). -/
inductive ListingItem
  | command (i : Instr)                        -- HOLD, INIT, UPD, INITUPD
  | reset                                      -- the listing keyword RESET
  | msg (bs : List Byte)                       -- MSG b0 ... b(n-1), n >= 0
  | msgf (b : Byte) (bs : List Byte)           -- MSGF b0 ... b(n-1), n >= 1
  | nop                                        -- NOP
  | chk (data : List Byte) (lo hi : Byte)      -- CHK b0 ... b(n-1) lo hi
deriving DecidableEq, Repr

/-- `MSG` (R47). -/
def expandMsg (bs : List Byte) : List Instr := .init :: bs.map .upd

/-- `MSGF` (R47). -/
def expandMsgf (b : Byte) (bs : List Byte) : List Instr := .initupd b :: bs.map .upd

/-- `NOP` (R47). -/
def expandNop : List Instr := [.hold]

/-- `CHK` (R47). -/
def expandChk (data : List Byte) (lo hi : Byte) : List Instr := expandMsg (data ++ [lo, hi])

/-- The step inputs of an item. `RESET` assembles to `rst = 1` with any word on the ports (R46): that word
is the argument `w` (log entry 7). -/
def itemInputs (w : CmdWord) : ListingItem → List StepInput
  | .command i => [commandInput i]
  | .reset => [resetInput w]
  | .msg bs => (expandMsg bs).map commandInput
  | .msgf b bs => (expandMsgf b bs).map commandInput
  | .nop => expandNop.map commandInput
  | .chk data lo hi => (expandChk data lo hi).map commandInput

/-- One hexadecimal digit; both cases of a letter are read (log entry 7). -/
def hexDigit (c : Char) : Option (BitVec 4) :=
  let n := c.toNat
  if 48 ≤ n ∧ n ≤ 57 then some (BitVec.ofNat 4 (n - 48))
  else if 65 ≤ n ∧ n ≤ 70 then some (BitVec.ofNat 4 (n - 55))
  else if 97 ≤ n ∧ n ≤ 102 then some (BitVec.ofNat 4 (n - 87))
  else none

/-- An operand: two hexadecimal digits with the prefix `0x` (R46). -/
def parseByte : List Char → Option Byte
  | ['0', 'x', h, l] =>
    match hexDigit h, hexDigit l with
    | some hi, some lo => some (hi ++ lo)
    | _, _ => none
  | _ => none

/-- The operands of a line. -/
def parseBytes : List (List Char) → Option (List Byte)
  | [] => some []
  | t :: ts =>
    match parseByte t, parseBytes ts with
    | some b, some bs => some (b :: bs)
    | _, _ => none

/-- A line without its comment: `;` starts one that runs to the end of the line (R46). -/
def dropComment : List Char → List Char
  | [] => []
  | c :: cs => if c = ';' then [] else c :: dropComment cs

/-- The text cut at every character that `p` holds of. -/
def splitText (p : Char → Bool) : List Char → List (List Char)
  | [] => [[]]
  | c :: cs =>
    if p c then [] :: splitText p cs
    else match splitText p cs with
      | [] => [[c]]
      | w :: ws => (c :: w) :: ws

/-- The characters that separate the words of a line: space, tab and carriage return (log entry 7). -/
def isBlankChar (c : Char) : Bool := c == ' ' || c == '\t' || c == '\r'

/-- The words of a line. -/
def lineWords (t : List Char) : List (List Char) :=
  (splitText isBlankChar (dropComment t)).filter fun w => !w.isEmpty

/-- The item that a mnemonic and its operands say; mnemonics are in upper case (R46). -/
def parseItem (mnemonic : List Char) (bs : List Byte) : Option ListingItem :=
  if mnemonic = ['H', 'O', 'L', 'D'] then
    match bs with
    | [] => some (.command .hold)
    | _ => none
  else if mnemonic = ['I', 'N', 'I', 'T'] then
    match bs with
    | [] => some (.command .init)
    | _ => none
  else if mnemonic = ['U', 'P', 'D'] then
    match bs with
    | [b] => some (.command (.upd b))
    | _ => none
  else if mnemonic = ['I', 'N', 'I', 'T', 'U', 'P', 'D'] then
    match bs with
    | [b] => some (.command (.initupd b))
    | _ => none
  else if mnemonic = ['R', 'E', 'S', 'E', 'T'] then
    match bs with
    | [] => some .reset
    | _ => none
  else if mnemonic = ['M', 'S', 'G'] then some (.msg bs)
  else if mnemonic = ['M', 'S', 'G', 'F'] then
    match bs with
    | b :: rest => some (.msgf b rest)
    | [] => none
  else if mnemonic = ['N', 'O', 'P'] then
    match bs with
    | [] => some .nop
    | _ => none
  else if mnemonic = ['C', 'H', 'K'] then
    match bs.reverse with
    | hi :: lo :: data => some (.chk data.reverse lo hi)
    | _ => none
  else none

/-- One line: nothing on a blank line, else one item; `none` where the line is no text of R46. -/
def parseLine (t : List Char) : Option (List ListingItem) :=
  match lineWords t with
  | [] => some []
  | m :: ops =>
    match parseBytes ops with
    | none => none
    | some bs => (parseItem m bs).map fun item => [item]

/-- The lines of a listing, in order. -/
def parseLines : List (List Char) → Option (List ListingItem)
  | [] => some []
  | t :: ts =>
    match parseLine t, parseLines ts with
    | some xs, some ys => some (xs ++ ys)
    | _, _ => none

/-- The assembler (R46): the step inputs of a listing; `w` is the word on the ports during its Reset
steps. -/
def assemble (w : CmdWord) (text : List Char) : Option (List StepInput) :=
  (parseLines (splitText (· == '\n') text)).map fun items => items.flatMap (itemInputs w)

/-- The hexadecimal digit of a value below 16, letters in upper case. -/
def hexChar (d : BitVec 4) : Char :=
  if d.toNat < 10 then Char.ofNat (48 + d.toNat) else Char.ofNat (55 + d.toNat)

/-- A byte as an operand is written (R46). -/
def byteText (b : Byte) : List Char :=
  ['0', 'x', hexChar (b.extractLsb' 4 4), hexChar (b.extractLsb' 0 4)]

/-- The operands of a line, each after one space. -/
def bytesText : List Byte → List Char
  | [] => []
  | b :: bs => ' ' :: (byteText b ++ bytesText bs)

/-- The line of an item (R46, R47). -/
def itemText : ListingItem → List Char
  | .command .hold => ['H', 'O', 'L', 'D']
  | .command .init => ['I', 'N', 'I', 'T']
  | .command (.upd b) => ['U', 'P', 'D'] ++ bytesText [b]
  | .command (.initupd b) => ['I', 'N', 'I', 'T', 'U', 'P', 'D'] ++ bytesText [b]
  | .reset => ['R', 'E', 'S', 'E', 'T']
  | .msg bs => ['M', 'S', 'G'] ++ bytesText bs
  | .msgf b bs => ['M', 'S', 'G', 'F'] ++ bytesText (b :: bs)
  | .nop => ['N', 'O', 'P']
  | .chk data lo hi => ['C', 'H', 'K'] ++ bytesText (data ++ [lo, hi])

/-- The disassembler (R42): the ignored field of HOLD and INIT is not printed. -/
def disassemble (w : CmdWord) : List Char := itemText (.command (decode w))

end Sys2Proof.Machine
end

