-- ==== Sys2Proof/Safety.lean ====
section
/-! DEFINITION. The terms in which a run is safe: what the host must do for the register to hold the CRC
of a message (spec/70_reset_and_hazards.md R96 to R102). The block detects none of it and never stops. -/

namespace Sys2Proof.Safety

open Sys2Proof.Machine

/-- The step starts a message (R96): a Reset step, INIT or INITUPD. -/
def seeding (x : StepInput) : Bool := x.rst || wordInit x.word

/-- The byte a step consumes, if it consumes one: at every step with `en = 1` and `rst = 0` (R100). -/
def byteConsumed (x : StepInput) : Option Byte :=
  if wordEn x.word && !x.rst then some (wordData x.word) else none

/-- The bytes a sequence of steps consumes, each once and in order (R100). -/
def bytesConsumed (xs : List StepInput) : List Byte := xs.filterMap byteConsumed

/-- The host's duty for one message (R96, R105): its first step seeds, and no later one does. HOLDs may
stand anywhere. -/
def oneMessage : List StepInput → Bool
  | [] => false
  | x :: rest => seeding x && rest.all fun y => !seeding y

/-- The message since the last seeding, one step on: what the register is the CRC of (R66, R78). -/
def messageAfter (m : List Byte) (x : StepInput) : List Byte :=
  if seeding x then (byteConsumed x).toList else m ++ (byteConsumed x).toList

end Sys2Proof.Safety
end

