-- ==== Sys2Proof/Certificates/Slice0/Obligations.lean ====
section
/-! DEFINITION. The statements for the provers. Each docstring names the rule of spec/ it formalises. The
fields `inputs` and `freeDraws` of State are the model's own (log entries 1 and 2). -/

open Sys2Proof Sys2Proof.Machine Sys2Proof.Safety

/-! ## Encoding -/

/-- For every command: its encoded word is canonical and decodes to it, and the machine that is presented
that word next runs exactly that command (spec/30_encoding.md section 4; R45 marks `decode(encode(c)) = c`
as the spec's own derivation). -/
def Obligations.EncodedCommandDecodesAndRunsAsItself : Prop :=
  ∀ i : Instr,
    i.wf = true ∧ isCanonicalWord (encode i) = true ∧ decode (encode i) = i ∧
    decodeTableWord 16 (encode i).toNat = some i ∧
    ∀ s : State, step (s.withFetchWord 16 (encode i).toNat) = exec i s

/-- `encode(decode(W)) = W` exactly when `W[8] = 1` or `W[7:0] = 0x00` (R45, the spec's own derivation). -/
def Obligations.ReencodingRestoresExactlyTheCanonicalWords : Prop :=
  ∀ w : CmdWord,
    (encode (decode w) = w ↔ wordEn w = true ∨ wordData w = 0x00#8) ∧
    (isCanonicalWord w = true ↔ wordEn w = true ∨ wordData w = 0x00#8)

/-- The opcode map (R40): a word selects the row for which `(W & mask) = match`, every word selects one,
and the canonical words are those of the table. -/
def Obligations.WordSelectsItsOpcodeRow : Prop :=
  (∀ w : CmdWord,
    (w &&& 0x300#10 = 0x000#10 ↔ decode w = .hold) ∧
    (w &&& 0x300#10 = 0x200#10 ↔ decode w = .init) ∧
    (w &&& 0x300#10 = 0x100#10 ↔ decode w = .upd (w.extractLsb' 0 8)) ∧
    (w &&& 0x300#10 = 0x300#10 ↔ decode w = .initupd (w.extractLsb' 0 8)) ∧
    (w &&& 0x300#10 = 0x000#10 ∨ w &&& 0x300#10 = 0x200#10 ∨
      w &&& 0x300#10 = 0x100#10 ∨ w &&& 0x300#10 = 0x300#10)) ∧
  encode .hold = 0x000#10 ∧ encode .init = 0x200#10 ∧
  ∀ b : Byte, encode (.upd b) = 0x100#10 + b.setWidth 10 ∧ encode (.initupd b) = 0x300#10 + b.setWidth 10

/-- Every word is legal and HOLD and INIT ignore `data` (R42): from the port values, all words of a row
decode to it, the assembler's word is canonical, and the disassembler prints `HOLD` or `INIT`. -/
def Obligations.IgnoredDataFieldNeverMatters : Prop :=
  (∀ d : Byte,
    decode (commandWord false false d) = .hold ∧ decode (commandWord true false d) = .init ∧
    decode (commandWord false true d) = .upd d ∧ decode (commandWord true true d) = .initupd d ∧
    disassemble (commandWord false false d) = ['H', 'O', 'L', 'D'] ∧
    disassemble (commandWord true false d) = ['I', 'N', 'I', 'T']) ∧
  wordData (encode .hold) = 0x00#8 ∧ wordData (encode .init) = 0x00#8 ∧
  ∀ w : CmdWord, ∃ i : Instr, decode w = i ∧ decodeTableWord 16 w.toNat = some i

/-- The command word of the ports, `W[9:0] = {init, en, data[7:0]}` (spec/30_encoding.md section 1): the
fields read back, and every word is the word of its fields. -/
def Obligations.CommandWordIsTheThreePorts : Prop :=
  (∀ (init en : Bool) (d : Byte),
    wordInit (commandWord init en d) = init ∧ wordEn (commandWord init en d) = en ∧
    wordData (commandWord init en d) = d) ∧
  ∀ w : CmdWord, commandWord (wordInit w) (wordEn w) (wordData w) = w

/-- The one operand form (R41): in UPD and INITUPD `b` is `W[7:0]` as it stands; zero-extended it meets `crc[7:0]` bit for bit
and leaves `crc[15:8]` untouched. -/
def Obligations.OperandMeetsTheLowByteBitForBit : Prop :=
  (∀ w : CmdWord,
    (wordEn w = true → decode w = .upd (wordData w) ∨ decode w = .initupd (wordData w)) ∧
    ∀ k, k < 8 → (wordData w).getLsbD k = w.getLsbD k) ∧
  ∀ (c : Word) (b : Byte),
    zext16 b = joinBytes 0x00#8 b ∧
    lowByte (c ^^^ zext16 b) = tableIndex c b ∧ highByte (c ^^^ zext16 b) = highByte c ∧
    ∀ k, k < 8 → (tableIndex c b).getLsbD k = (c.getLsbD k ^^ b.getLsbD k)

/-- Words written out from the spec's encodings decode to the commands they stand for (the listing of R46
and the non-canonical words of T-HOLD and T-INIT). -/
def Obligations.SpecSampleWordsDecode : Prop :=
  decode 0b00_00000000#10 = .hold ∧ decode 0b00_10101011#10 = .hold ∧
  decode 0b10_00000000#10 = .init ∧ decode 0b10_11111111#10 = .init ∧
  decode 0b01_00001010#10 = .upd 0x0A#8 ∧ decode 0b01_11000101#10 = .upd 0xC5#8 ∧
  decode 0b11_00000001#10 = .initupd 0x01#8 ∧ decode 0b11_00010001#10 = .initupd 0x11#8

/-! ## The step -/

/-- A step runs the instruction its word decodes to, and takes one input (spec/40_commands.md section 1;
where nothing is placed the input is free: the model's choice, log entries 1, 2 and 4). -/
def Obligations.StepRunsThePresentedCommand : Prop :=
  (∀ (s : State) (x : StepInput) (rest : List StepInput), s.inputs = x :: rest →
    step s = if x.rst then .next { s with crc := 0xFFFF#16, inputs := rest }
      else exec (decode x.word) { s with inputs := rest }) ∧
  (∀ s : State, s.inputs = [] →
    step s = if Config.freeRst s.freeDraws then
        .next { s with crc := 0xFFFF#16, freeDraws := s.freeDraws + 1 }
      else exec (decode (Config.freeWord s.freeDraws)) { s with freeDraws := s.freeDraws + 1 }) ∧
  ∀ (s : State) (nbits w : Nat), 10 ≤ nbits → w < 1024 →
    step (s.withFetchWord nbits w) = exec (decode (BitVec.ofNat 10 w)) s

/-- The step function (R49): total, one next state for every state and input pair, given by cases on
`rst` and the command, and equally by the one expression. -/
def Obligations.StepIsTheTotalStepFunction : Prop :=
  ∀ s : State, ∃ c : Word,
    step s = .next { s.takeInput with crc := c } ∧
    (c = if s.presented.rst then 0xFFFF#16 else
      match decode s.presented.word with
      | .hold => s.crc
      | .init => 0xFFFF#16
      | .upd b => crcUpdate s.crc b
      | .initupd b => crcUpdate 0xFFFF#16 b) ∧
    (c = if s.presented.rst || wordInit s.presented.word then
        (if wordEn s.presented.word && !s.presented.rst then
          crcUpdate 0xFFFF#16 (wordData s.presented.word) else 0xFFFF#16)
      else (if wordEn s.presented.word then crcUpdate s.crc (wordData s.presented.word) else s.crc))

/-- No fault, no refusal, no stuck state: every command and any number of steps answer a next state
(spec/60_exceptions.md section 1; R81 marks it as the spec's own derivation). -/
def Obligations.RunOfAnyLengthAnswersANextState : Prop :=
  (∀ (i : Instr) (s : State), ∃ t, exec i s = .next t) ∧
  ∀ (k : Nat) (s : State), ∃ t, runSteps k s = .next t

/-- The Reset step (R93, R44): `crc <- 0xFFFF` and nothing else, whatever the word and the old value; its
effect on the state is that of INIT; the outputs after it are 0xFFFF, 0xFFFF and 0. -/
def Obligations.ResetStepLoadsTheSeedWhateverTheWord : Prop :=
  ∀ s : State, s.presented.rst = true →
    step s = .next { s.takeInput with crc := 0xFFFF#16 } ∧
    step s = exec .init s.takeInput ∧
    observe { s.takeInput with crc := 0xFFFF#16 } =
      { crcOut := 0xFFFF#16, crcWire := 0xFFFF#16, zero := false }

/-- Reset is idempotent and needs no recovery time (R94): `rst` held for one or more steps leaves 0xFFFF,
from any register value, and the step after it performs its command normally. -/
def Obligations.HeldResetLeavesTheSeedAndRecoversAtOnce : Prop :=
  ∀ (s : State) (xs rest : List StepInput), xs ≠ [] → (∀ x ∈ xs, x.rst = true) →
    s.inputs = xs ++ rest →
    runSteps xs.length s = .next { s with crc := 0xFFFF#16, inputs := rest } ∧
    ∀ (y : StepInput) (rest' : List StepInput), rest = y :: rest' → y.rst = false →
      runSteps (xs.length + 1) s = exec (decode y.word) { s with crc := 0xFFFF#16, inputs := rest' }

/-- Simultaneous inputs (R84): `rst` wins over any command and a byte presented with it is not consumed;
without it, `init` with `en` is INITUPD, the seed first and then the byte. -/
def Obligations.ResetOverridesAndInitWithEnSeedsFirst : Prop :=
  ∀ (s : State) (rest : List StepInput) (d : Byte),
    (∀ init en : Bool,
      step { s with inputs := { rst := true, word := commandWord init en d } :: rest } =
        .next { s with crc := 0xFFFF#16, inputs := rest }) ∧
    step { s with inputs := { rst := false, word := commandWord true true d } :: rest } =
      exec (.initupd d) { s with inputs := rest } ∧
    step { s with inputs := { rst := false, word := commandWord true true d } :: rest } =
      .next { s with crc := crcUpdate 0xFFFF#16 d, inputs := rest }

/-- Determinism (spec/10_state.md section 5): two steps with the same `crc` and the same input give the same
next `crc`, whatever the rest of the two states. -/
def Obligations.NextRegisterDependsOnRegisterAndInputAlone : Prop :=
  ∀ s s' : State, s.crc = s'.crc → s.presented = s'.presented →
    ∃ t t', step s = .next t ∧ step s' = .next t' ∧ t.crc = t'.crc

/-- A byte presented at a step that consumes none is lost without effect (spec/70_reset_and_hazards.md
section 3): where `rst = 1` or `en = 0` the step is the same for every value on `data`. -/
def Obligations.ByteNotConsumedHasNoEffect : Prop :=
  ∀ (s : State) (x : StepInput) (rest : List StepInput) (d : Byte), byteConsumed x = none →
    step { s with inputs := x :: rest } =
      step { s with inputs :=
        { x with word := commandWord (wordInit x.word) (wordEn x.word) d } :: rest }

/-- `crc` is written by a Reset step, INIT, UPD and INITUPD alone (spec/10_state.md section 1): where it
changes, the step seeded it or consumed a byte. -/
def Obligations.RegisterChangesOnlyBySeedingOrAByte : Prop :=
  ∀ s t : State, step s = .next t → t.crc ≠ s.crc →
    seeding s.presented = true ∨ (byteConsumed s.presented).isSome = true

/-- A step samples one input (spec/30_encoding.md section 1; the two fields are the model's own, log entries 1
and 2): the placed inputs lose their head, or one more free input has been drawn. -/
def Obligations.StepTakesExactlyOneInput : Prop :=
  ∀ s t : State, step s = .next t →
    t.inputs = s.inputs.tail ∧
    t.freeDraws = if s.inputs.isEmpty then s.freeDraws + 1 else s.freeDraws

/-! ## The commands -/

/-- HOLD (R50): all words `00xxxxxxxx`, canonical 0x000; `crc` and with it every output keeps its value; any
number of HOLDs anywhere leaves the register unchanged. -/
def Obligations.HoldKeepsTheRegister : Prop :=
  (∀ d : Byte, decode (commandWord false false d) = .hold) ∧ encode .hold = 0x000#10 ∧
  (∀ s : State, exec .hold s = .next s) ∧
  ∀ (s : State) (xs rest : List StepInput),
    (∀ x ∈ xs, x.rst = false ∧ decode x.word = .hold) → s.inputs = xs ++ rest →
    runSteps xs.length s = .next { s with inputs := rest }

/-- INIT (R51): all words `10xxxxxxxx`, canonical 0x200; `crc <- 0xFFFF` whatever it was, as a Reset step does;
`zero` becomes 0; idempotent. -/
def Obligations.InitSeedsTheRegister : Prop :=
  (∀ d : Byte, decode (commandWord true false d) = .init) ∧ encode .init = 0x200#10 ∧
  ∀ s : State, ∃ t : State, exec .init s = .next t ∧ t = { s with crc := 0xFFFF#16 } ∧ t = s.resetStep ∧
    observe t = { crcOut := 0xFFFF#16, crcWire := 0xFFFF#16, zero := false } ∧
    exec .init t = .next t

/-- UPD b (R52): word 0x100 + b; `crc <- (crc >> 8) ^ TABLE[crc[7:0] ^ b]`; `zero` becomes 1 exactly when the
new `crc` is 0x0000, which happens exactly when `crc[15:8] = 0x00` and `crc[7:0] = b` before. The last
equivalence is the spec's own derivation, tagged inside R52, so the statement's basis is 'derived'. -/
def Obligations.UpdConsumesItsByte : Prop :=
  (∀ b : Byte, decode (commandWord false true b) = .upd b ∧
    encode (.upd b) = 0x100#10 + b.setWidth 10) ∧
  ∀ (s : State) (b : Byte), ∃ t : State,
    exec (.upd b) s = .next t ∧
    t = { s with crc := (s.crc >>> 8) ^^^ tableRead (lowByte s.crc ^^^ b) } ∧
    (zeroFlag t = true ↔ t.crc = 0x0000#16) ∧
    (t.crc = 0x0000#16 ↔ highByte s.crc = 0x00#8 ∧ lowByte s.crc = b)

/-- The corner cases listed in the table of spec/40_commands.md R52: `crc` before, `b`, index, table entry,
`crc` after. -/
def Obligations.UpdCornerCasesComeOutAsListed : Prop :=
  ∀ row ∈ ([
      (0xFFFF#16, 0x01#8, 0xFE#8, 0x8081#16, 0x807E#16), (0xFFFF#16, 0x00#8, 0xFF#8, 0x4040#16, 0x40BF#16),
      (0xFFFF#16, 0xFF#8, 0x00#8, 0x0000#16, 0x00FF#16), (0x00FF#16, 0xFF#8, 0x00#8, 0x0000#16, 0x0000#16),
      (0x0000#16, 0x00#8, 0x00#8, 0x0000#16, 0x0000#16), (0x0000#16, 0x01#8, 0x01#8, 0xC0C1#16, 0xC0C1#16),
      (0x0000#16, 0x80#8, 0x80#8, 0xA001#16, 0xA001#16), (0x0001#16, 0x01#8, 0x00#8, 0x0000#16, 0x0000#16),
      (0x8000#16, 0x00#8, 0x00#8, 0x0000#16, 0x0080#16), (0x0100#16, 0x00#8, 0x00#8, 0x0000#16, 0x0001#16),
      (0x00FF#16, 0x00#8, 0xFF#8, 0x4040#16, 0x4040#16), (0xA001#16, 0x00#8, 0x01#8, 0xC0C1#16, 0xC061#16),
      (0x1234#16, 0x56#8, 0x62#8, 0xE981#16, 0xE993#16), (0xABCD#16, 0xEF#8, 0x22#8, 0x1980#16, 0x192B#16),
      (0xCDC5#16, 0xC5#8, 0x00#8, 0x0000#16, 0x00CD#16), (0x00CD#16, 0xCD#8, 0x00#8, 0x0000#16, 0x0000#16)] :
      List (Word × Byte × Byte × Word × Word)),
    tableIndex row.1 row.2.1 = row.2.2.1 ∧ tableRead row.2.2.1 = row.2.2.2.1 ∧
    ∀ s : State, s.crc = row.1 → exec (.upd row.2.1) s = .next { s with crc := row.2.2.2.2 }

/-- INITUPD b (R53): word 0x300 + b; `crc <- 0x00FF ^ TABLE[0xFF ^ b]`, the old value discarded; `zero`
becomes 0 always; in every state exactly INIT followed by UPD b. The last two clauses are the spec's own
derivations, tagged inside R53, so the statement's basis is 'derived'. -/
def Obligations.InitupdSeedsThenConsumes : Prop :=
  (∀ b : Byte, decode (commandWord true true b) = .initupd b ∧
    encode (.initupd b) = 0x300#10 + b.setWidth 10) ∧
  ∀ (s : State) (b : Byte), ∃ t u : State,
    exec (.initupd b) s = .next t ∧
    t = { s with crc := 0x00FF#16 ^^^ tableRead (0xFF#8 ^^^ b) } ∧
    t.crc = crcUpdate 0xFFFF#16 b ∧ zeroFlag t = false ∧
    exec .init s = .next u ∧ exec (.upd b) u = .next t

/-- The frame of the four commands (spec/40_commands.md section 2): no command touches what stands on the
inputs, and HOLD does not touch `crc`; there is no other state. -/
def Obligations.CommandsChangeNothingButTheRegister : Prop :=
  ∀ (i : Instr) (s t : State), exec i s = .next t →
    t.inputs = s.inputs ∧ t.freeDraws = s.freeDraws ∧ (i = .hold → t.crc = s.crc)

/-! ## Outputs, reset, power-on -/

/-- The outputs are functions of `crc` alone (R39): `crc_out = crc`, `crc_wire = {crc[7:0], crc[15:8]}`,
`zero = (crc == 0x0000)`. -/
def Obligations.OutputsShowTheRegister : Prop :=
  (∀ s : State, crcOut s = s.crc ∧
    highByte (crcWire s) = lowByte s.crc ∧ lowByte (crcWire s) = highByte s.crc ∧
    (zeroFlag s = true ↔ s.crc = 0x0000#16) ∧
    observe s = { crcOut := crcOut s, crcWire := crcWire s, zero := zeroFlag s }) ∧
  ∀ s s' : State, s.crc = s'.crc → observe s = observe s'

/-- The values after a Reset step and at power-on (R19). The power-on value is the open parameter, a free
value of the model: the statement holds for every value of it. -/
def Obligations.ResetAndPowerOnValues : Prop :=
  State.reset.crc = 0xFFFF#16 ∧
  observe State.reset = { crcOut := 0xFFFF#16, crcWire := 0xFFFF#16, zero := false } ∧
  ∀ n : Nat, (State.powerOn n).crc = Config.powerOnCrc n ∧
    crcOut (State.powerOn n) = Config.powerOnCrc n ∧
    highByte (crcWire (State.powerOn n)) = lowByte (Config.powerOnCrc n) ∧
    lowByte (crcWire (State.powerOn n)) = highByte (Config.powerOnCrc n) ∧
    (zeroFlag (State.powerOn n) = true ↔ Config.powerOnCrc n = 0x0000#16)

/-- From the first seeding on the old register, the power-on value included, no longer matters
(spec/70_reset_and_hazards.md section 1): a step that seeds does not read it. -/
def Obligations.SeedingForgetsTheOldRegister : Prop :=
  ∀ (s : State) (c : Word), seeding s.presented = true → step { s with crc := c } = step s

/-! ## The update function and its table -/

/-- The table generation rule (R23): every entry is eight reductions of its index, equally the bitwise update
of accumulator 0x0000. -/
def Obligations.TableEntriesAreEightReductions : Prop :=
  ∀ i : Byte, tableRead i = step8 (zext16 i) ∧ tableRead i = crcBitwiseUpdate 0x0000#16 i

/-- Structural facts of the table other than linearity (spec/20_memory.md section 2; R25 marks them as the
spec's own derivations). -/
def Obligations.TableStructure : Prop :=
  tableRead 0x00#8 = 0x0000#16 ∧ tableRead 0x80#8 = 0xA001#16 ∧
  tableRead 0x01#8 = 0xC0C1#16 ∧ tableRead 0xFF#8 = 0x4040#16 ∧
  (∀ i j : Byte, highByte (tableRead i) = highByte (tableRead j) → i = j) ∧
  (∀ h : Byte, ∃ i : Byte, highByte (tableRead i) = h) ∧
  (∀ i : Byte, tableRead i = 0x0000#16 → i = 0x00#8) ∧
  (∀ i : Byte, lowByte (tableRead i) &&& 0x3E#8 = 0x00#8) ∧
  (∀ v ∈ [0x00#8, 0x01#8, 0x40#8, 0x41#8, 0x80#8, 0x81#8, 0xC0#8, 0xC1#8],
    (tableRom.filter fun e => lowByte e == v).length = 32) ∧
  tableRom.foldl (· ^^^ ·) 0x0000#16 = 0x0000#16

/-- The table is linear over XOR (fact 3 of R25, the spec's own derivation). -/
def Obligations.TableIsLinear : Prop :=
  ∀ a b : Byte, tableRead (a ^^^ b) = tableRead a ^^^ tableRead b

/-- The reference update equals the table update on all 2^24 pairs (R65). -/
def Obligations.BitwiseUpdateEqualsTableUpdate : Prop :=
  ∀ (c : Word) (b : Byte),
    crcBitwiseUpdate c b = step8 (c ^^^ zext16 b) ∧ crcBitwiseUpdate c b = crcUpdate c b

/-- The parallel XOR equations compute the same update (spec/40_commands.md section 3; R54 marks them as the
spec's own derivation). -/
def Obligations.XorNetworkEqualsTableUpdate : Prop :=
  ∀ (c : Word) (b : Byte), crcXorUpdate c b = crcUpdate c b

/-- `crc_update` is linear over XOR, and the byte matters only through its XOR with the low byte of the
accumulator (spec/40_commands.md section 4; R56, the spec's own derivation). -/
def Obligations.UpdateIsLinear : Prop :=
  (∀ (c c' : Word) (b b' : Byte),
    crcUpdate (c ^^^ c') (b ^^^ b') = crcUpdate c b ^^^ crcUpdate c' b') ∧
  crcUpdate 0x0000#16 0x00#8 = 0x0000#16 ∧
  ∀ (c : Word) (b : Byte), crcUpdate c b = crcUpdate (c ^^^ zext16 b) 0x00#8

/-- For each byte the update is a bijection of the accumulator with inverse `crc_unupdate`, and for each
accumulator it is injective in the byte (spec/40_commands.md section 4; R57, the spec's own derivation). -/
def Obligations.UnupdateInvertsUpdate : Prop :=
  (∀ (c : Word) (b : Byte), crcUnupdate (crcUpdate c b) b = c) ∧
  (∀ (n : Word) (b : Byte), crcUpdate (crcUnupdate n b) b = n) ∧
  ∀ (c : Word) (b b' : Byte), crcUpdate c b = crcUpdate c b' → b = b'

/-- Every 16-bit value is reached from the seed by two UPD commands, with exactly one pair of bytes
(spec/10_state.md section 1, spec/40_commands.md section 4; the spec's own derivation). -/
def Obligations.EveryValueIsTwoUpdsFromTheSeed : Prop :=
  ∀ v : Word, ∃ b₁ b₂ : Byte,
    (∀ s : State, s.crc = 0xFFFF#16 → ∃ t, exec (.upd b₁) s = .next t ∧
      exec (.upd b₂) t = .next { s with crc := v }) ∧
    ∀ b₁' b₂' : Byte, crcUpdate (crcUpdate 0xFFFF#16 b₁') b₂' = v → b₁' = b₁ ∧ b₂' = b₂

/-! ## Messages on the machine -/

/-- The invariant every step keeps (spec/41_message_operations.md sections 2 and 5): if `crc` is the CRC-16 of
the message since the last seeding, then after the step it is the CRC-16 of that message as the step leaves
it: begun anew by a Reset step, INIT or INITUPD, one byte longer after a byte, the same after HOLD. -/
def Obligations.EveryStepKeepsRegisterAsCrcOfItsMessage : Prop :=
  ∀ (s t : State) (m : List Byte), s.crc = crc16 m → step s = .next t →
    t.crc = crc16 (messageAfter m s.presented)

/-- The invariant holds at reset: `crc` is the CRC-16 of the empty message (spec/41_message_operations.md
section 3, spec/10_state.md section 6). -/
def Obligations.ResetRegisterIsCrcOfEmptyMessage : Prop :=
  State.reset.crc = crc16 []

/-- Commands and messages (spec/41_message_operations.md section 2; R66, the spec's own derivation): from any
state, a first step that seeds (Reset, INIT, INITUPD) and then any mixture of UPDs and HOLDs leaves the
CRC-16 of the bytes consumed. -/
def Obligations.SeededMessageLeavesItsCrc16 : Prop :=
  ∀ (s : State) (xs rest : List StepInput), oneMessage xs = true → s.inputs = xs ++ rest →
    runSteps xs.length s = .next { s with crc := crc16 (bytesConsumed xs), inputs := rest }

/-- Contamination (R98): bytes fed without seeding continue from the old register, and from 0x0000 any number
of zero bytes leaves 0x0000. -/
def Obligations.UnseededBytesContinueTheOldMessage : Prop :=
  (∀ (s : State) (xs rest : List StepInput), (∀ x ∈ xs, seeding x = false) → s.inputs = xs ++ rest →
    runSteps xs.length s = .next { s with crc := crc16From s.crc (bytesConsumed xs), inputs := rest }) ∧
  ∀ n : Nat, crc16From 0x0000#16 (List.replicate n 0x00#8) = 0x0000#16

/-- The run (R104): the inputs applied in order to the launch state, the final register and the observation
after every prefix. -/
def Obligations.RunAppliesItsInputsInOrder : Prop :=
  ∀ (s : State) (xs rest : List StepInput), s.inputs = xs ++ rest →
    runSteps xs.length s = .next { s with crc := runCrc s.crc xs, inputs := rest } ∧
    (observations s xs.length).length = xs.length ∧
    ∀ k, k < xs.length →
      (observations s xs.length)[k]? = some (observe { s with crc := runCrc s.crc (xs.take (k + 1)) })

/-- Laws of command sequences (spec/40_commands.md section 7; R62, the spec's own derivation), for every start
value of `crc`, every step input `x` and every byte `b`. -/
def Obligations.CommandSequenceLaws : Prop :=
  (∀ (c : Word) (x : StepInput) (b : Byte) (w : CmdWord),
    runCrc c [commandInput .hold, x] = runCrc c [x] ∧
    runCrc c [x, commandInput .hold] = runCrc c [x] ∧
    runCrc c [commandInput .init, commandInput (.upd b)] = runCrc c [commandInput (.initupd b)] ∧
    runCrc c [x, commandInput .init] = runCrc c [commandInput .init] ∧
    runCrc c [x, commandInput (.initupd b)] = runCrc c [commandInput (.initupd b)] ∧
    runCrc c [x, resetInput w] = runCrc c [resetInput w] ∧
    runCrc c [resetInput w] = runCrc c [commandInput .init]) ∧
  runCrc 0xFFFF#16 [commandInput (.upd 0x01#8), commandInput (.upd 0x02#8)] = 0xE181#16 ∧
  runCrc 0xFFFF#16 [commandInput (.upd 0x02#8), commandInput (.upd 0x01#8)] = 0x10C1#16 ∧
  ∃ (c : Word) (b : Byte),
    runCrc c [commandInput (.upd b), commandInput (.upd b)] ≠ runCrc c [commandInput (.upd b)]

/-- The verdict of the `zero` output (spec/10_state.md section 3, spec/41_message_operations.md section 4):
after a whole frame fed from the seed, `zero = 1` exactly when the two trailing bytes are the low and the
high byte of the CRC of the bytes before them. -/
def Obligations.ZeroOutputJudgesTheWholeFrame : Prop :=
  ∀ (s : State) (xs rest : List StepInput) (data : List Byte) (lo hi : Byte),
    oneMessage xs = true → s.inputs = xs ++ rest → bytesConsumed xs = data ++ [lo, hi] →
    ∃ t : State, runSteps xs.length s = .next t ∧
      (zeroFlag t = true ↔ lo = lowByte (crc16 data) ∧ hi = highByte (crc16 data))

/-! ## Pseudo-instructions and listings -/

/-- The pseudo-instructions (R47): their expansions, and what the machine holds after each. -/
def Obligations.PseudoInstructionsDoWhatTheyName : Prop :=
  (∀ bs : List Byte, expandMsg bs = .init :: bs.map .upd) ∧
  (∀ (b : Byte) (bs : List Byte), expandMsgf b bs = .initupd b :: bs.map .upd) ∧
  expandNop = [.hold] ∧
  (∀ (data : List Byte) (lo hi : Byte), expandChk data lo hi = expandMsg (data ++ [lo, hi])) ∧
  ∀ (s : State) (w : CmdWord) (rest : List StepInput),
    (∀ bs : List Byte,
      runSteps (bs.length + 1) { s with inputs := itemInputs w (.msg bs) ++ rest } =
        .next { s with crc := crc16 bs, inputs := rest }) ∧
    (∀ (b : Byte) (bs : List Byte),
      runSteps (bs.length + 1) { s with inputs := itemInputs w (.msgf b bs) ++ rest } =
        .next { s with crc := crc16 (b :: bs), inputs := rest }) ∧
    runSteps 1 { s with inputs := itemInputs w .nop ++ rest } = .next { s with inputs := rest } ∧
    ∀ (data : List Byte) (lo hi : Byte), ∃ t : State,
      runSteps (data.length + 3) { s with inputs := itemInputs w (.chk data lo hi) ++ rest } = .next t ∧
      (zeroFlag t = true ↔ lo = lowByte (crc16 data) ∧ hi = highByte (crc16 data))

/-- Text and items (spec/30_encoding.md section 5; the line of a pseudo-instruction is the model's reading, log
entry 7): the line written for an item reads back as that item. -/
def Obligations.ListingLineReadsBackAsItsItem : Prop :=
  ∀ item : ListingItem, parseLine (itemText item) = some [item]

/-- The listing of R46 (spec/30_encoding.md section 5) assembles to its words; the word during RESET is any
word. -/
def Obligations.SpecListingAssembles : Prop :=
  ∀ w : CmdWord,
    assemble w
      (['H', 'O', 'L', 'D', ' ', ';', ' ', '0', '\n'] ++ ['I', 'N', 'I', 'T', '\n'] ++
        ['U', 'P', 'D', ' ', ' ', '0', 'x', '0', 'A', '\n'] ++
        ['I', 'N', 'I', 'T', 'U', 'P', 'D', ' ', '0', 'x', '0', '1', '\n'] ++ ['\n'] ++
        ['R', 'E', 'S', 'E', 'T']) =
      some [⟨false, 0x000#10⟩, ⟨false, 0x200#10⟩, ⟨false, 0x10A#10⟩, ⟨false, 0x301#10⟩, ⟨true, w⟩]

/-! ## The message level -/

/-- The empty message (R70): no update is performed and the seed is returned, with any pointer; at command
level INIT alone leaves `crc_out` = 0xFFFF. -/
def Obligations.EmptyMessageYieldsTheSeed : Prop :=
  crc16 [] = 0xFFFF#16 ∧
  (∀ (m : Memory) (buf : Option Nat),
    modbusCrcCheckTable m buf 0 = .ok 0xFFFF#16 ∧ modbusCrcCheckTableAbs m buf 0 = .ok 0xFFFF#16 ∧
    modbusCrcCalc m buf 0 = .ok 0xFFFF#16) ∧
  ∀ s : State, ∃ t, exec .init s = .next t ∧ crcOut t = 0xFFFF#16

/-- A message may be fed in pieces (spec/41_message_operations.md section 5; R78, the spec's own derivation). -/
def Obligations.CrcOfConcatenationContinues : Prop :=
  ∀ a b : List Byte, crc16 (a ++ b) = crc16From (crc16 a) b

/-- The residue theorem (R74), both directions, and the spec's example of the wrong byte order. -/
def Obligations.ResidueIsZeroExactlyForTheRightTrailer : Prop :=
  (∀ data : List Byte, crc16 (data ++ [lowByte (crc16 data), highByte (crc16 data)]) = 0x0000#16) ∧
  (∀ (data : List Byte) (lo hi : Byte),
    crc16 (data ++ [lo, hi]) = 0x0000#16 ↔ lo = lowByte (crc16 data) ∧ hi = highByte (crc16 data)) ∧
  (∀ (data : List Byte) (lo hi : Byte), verifyByResidue (data ++ [lo, hi]) = true ↔
    crc16 (data ++ [lo, hi]) = 0x0000#16) ∧
  crc16 [0x01#8, 0x03#8, 0x00#8, 0x00#8, 0x00#8, 0x0A#8, 0xCD#8, 0xC5#8] = 0x0606#16

/-- VERIFY by comparison (R73): accepts exactly when the trailing bytes are the CRC's low and high byte, and
rejects a frame of fewer than 2 bytes. -/
def Obligations.ComparisonAcceptsExactlyTheRightTrailer : Prop :=
  (∀ (data : List Byte) (lo hi : Byte), verifyByComparison (data ++ [lo, hi]) = true ↔
    lowByte (crc16 data) = lo ∧ highByte (crc16 data) = hi) ∧
  (∀ (data : List Byte) (lo hi : Byte), verifyByComparison (data ++ [lo, hi]) = true ↔
    crc16 data = joinBytes hi lo) ∧
  ∀ frame : List Byte, frame.length < 2 → verifyByComparison frame = false

/-- The two forms of VERIFY agree on every frame, and accept every frame that APPEND makes
(spec/41_message_operations.md section 4; that the residue form rejects a frame of fewer than 2 bytes is the
model's reading, log entry 8). -/
def Obligations.BothVerifiersAgree : Prop :=
  (∀ frame : List Byte, verifyByComparison frame = verifyByResidue frame) ∧
  ∀ data : List Byte, verifyByResidue (frameOf data) = true

/-- A change of one byte, and so of one bit, always changes the CRC (R77). -/
def Obligations.SingleByteChangeAlwaysChangesTheCrc : Prop :=
  (∀ (a c : List Byte) (b b' : Byte), b ≠ b' → crc16 (a ++ b :: c) ≠ crc16 (a ++ b' :: c)) ∧
  ∀ (a c : List Byte) (b : Byte) (k : Nat), k < 8 →
    crc16 (a ++ b :: c) ≠ crc16 (a ++ (b ^^^ (0x01#8 <<< k)) :: c)

/-- `ModbusCRC_CheckTableAbs` (R69) and `ModbusCRC_Calc` (R71) return what `ModbusCRC_CheckTable` returns, for
all inputs. -/
def Obligations.ThreeEntryPointsAgree : Prop :=
  ∀ (m : Memory) (buf : Option Nat) (length : Nat),
    modbusCrcCheckTableAbs m buf length = modbusCrcCheckTable m buf length ∧
    modbusCrcCalc m buf length = modbusCrcCheckTable m buf length

/-- `ModbusCRC_CheckTable` (spec/41_message_operations.md section 3): the CRC over exactly the `length` bytes of
the buffer, whatever stands elsewhere in memory; the spec's example. The form of the host's memory is the
model's choice (log entries 5 and 13), so the statement's basis is 'derived'. -/
def Obligations.CheckTableComputesOverExactlyItsBytes : Prop :=
  (∀ (m : Memory) (a : Nat) (bs : List Byte), m.wf → (bs = [] ∨ m.inside a bs.length) →
    (∀ i, i < bs.length → memRead m (a + i) = bs[i]?) →
    modbusCrcCheckTable m (some a) bs.length = .ok (crc16 bs)) ∧
  crc16 [0x01#8, 0x03#8, 0x00#8, 0x00#8, 0x00#8, 0x0A#8] = 0xCDC5#16

/-- The byte-buffer read (spec/20_memory.md section 3): the bytes at the ascending addresses, all of them and no
other, exactly where the range is wholly inside a readable buffer (the form of the memory: log entries 5 and
13). -/
def Obligations.BufferIsReadInAscendingOrder : Prop :=
  ∀ (m : Memory) (a n : Nat) (bs : List Byte), m.wf →
    (memReadRange m a n = some bs ↔
      m.inside a n ∧ bs.length = n ∧ ∀ i, i < n → ∃ b, memRead m (a + i) = some b ∧ bs[i]? = some b)

/-- Preconditions of the message-level functions (spec/41_message_operations.md section 5, spec/93 U2), of each of
the three: zero length is legal with any pointer; a null buffer, a range with an unreadable byte, and any range
not wholly inside a readable buffer, with non-zero length, have no result and are refused, also where two buffers
abut; every other call has one, of any length. Which refusal is named is the model's choice, as is the form of the
memory (log entries 5 and 13), so the statement's basis is 'derived'. -/
def Obligations.CallsOutsideABufferAreRefused : Prop :=
  ∀ f ∈ [modbusCrcCheckTable, modbusCrcCheckTableAbs, modbusCrcCalc],
    (∀ (m : Memory) (buf : Option Nat), f m buf 0 = .ok 0xFFFF#16) ∧
    (∀ (m : Memory) (n : Nat), n ≠ 0 → f m none n = .error .nullBuffer) ∧
    (∀ (m : Memory) (a n i : Nat), i < n → memRead m (a + i) = none →
      f m (some a) n = .error .outsideBuffer) ∧
    (∀ (m : Memory) (a n : Nat), n ≠ 0 → ¬ m.inside a n → f m (some a) n = .error .outsideBuffer) ∧
    (∀ (m : Memory) (a n : Nat), m.inside a n → ∃ r, f m (some a) n = .ok r) ∧
    ∀ (a : Nat) (b c : Byte),
      f [{ base := a, bytes := [b] }, { base := a + 1, bytes := [c] }] (some a) 2 = .error .outsideBuffer

/-- APPEND (spec/41_message_operations.md section 4): with room for two more bytes in the frame's buffer, the low
byte of the CRC is written first, the high byte behind it, and every other byte of memory reads as before;
without it the call is refused; on the block's outputs the first byte is `crc_out[7:0]` or equally
`crc_wire[15:8]`; the spec's example. That room means places of the buffer is deduced (log entry 5), and the form
of the memory is the model's choice (log entry 13), so the statement's basis is 'derived'. -/
def Obligations.AppendWritesTheCrcLowByteFirst : Prop :=
  (∀ (m : Memory) (frame n : Nat) (data : List Byte), m.wf → m.inside frame (n + 2) →
    memReadRange m frame n = some data →
    ∃ m' : Memory, appendCrc m frame n = .ok m' ∧
      memRead m' (frame + n) = some (lowByte (crc16 data)) ∧
      memRead m' (frame + n + 1) = some (highByte (crc16 data)) ∧
      ∀ a, a ≠ frame + n → a ≠ frame + n + 1 → memRead m' a = memRead m a) ∧
  (∀ (m : Memory) (frame n : Nat), ¬ m.inside frame (n + 2) → appendCrc m frame n = .error .outsideBuffer) ∧
  (∀ s : State, highByte (crcWire s) = lowByte (crcOut s) ∧ lowByte (crcWire s) = highByte (crcOut s)) ∧
  frameOf [0x01#8, 0x03#8, 0x00#8, 0x00#8, 0x00#8, 0x0A#8] =
    [0x01#8, 0x03#8, 0x00#8, 0x00#8, 0x00#8, 0x0A#8, 0xC5#8, 0xCD#8]

/-- A frame that APPEND completed in the buffer is accepted by both forms of VERIFY over the buffer
(spec/41_message_operations.md section 4; the form of the memory: log entries 5 and 13). -/
def Obligations.AppendedFrameVerifiesInTheBuffer : Prop :=
  ∀ (m m' : Memory) (frame n : Nat), m.wf → appendCrc m frame n = .ok m' →
    bufferVerifyByResidue m' (some frame) (n + 2) = .ok true ∧
    bufferVerifyByComparison m' (some frame) (n + 2) = .ok true
end

