-- ==== Sys2Proof/Laws/Buffer.lean ====
section
/-! SUPPORT. The laws of the host's buffers: which buffer a range is inside, what a write does, that a read
after a write reads it, and that every write keeps the canonical form. -/

namespace Sys2Proof.Laws

open Sys2Proof.Machine

/-- A buffer is found exactly where the range is wholly inside one. -/
theorem bufferOf_isSome (m : Memory) (a n : Nat) : (bufferOf m a n).isSome = true ↔ m.inside a n := by
  simp [bufferOf, List.find?_isSome]

/-- What is found is a buffer of the memory that holds the range. -/
theorem bufferOf_holds {m : Memory} {a n : Nat} {b : Buffer} (h : bufferOf m a n = some b) :
    b ∈ m ∧ b.holds a n :=
  ⟨List.mem_of_find?_eq_some h, by simpa using List.find?_some h⟩

/-- In a canonical memory two buffers that share an address are the same buffer. -/
theorem buffer_unique {m : Memory} (hm : m.wf) {b c : Buffer} {a : Nat} (hb : b ∈ m) (hc : c ∈ m)
    (hba : b.holds a 1) (hca : c.holds a 1) : b = c := by
  have hp := hm.2
  clear hm
  induction m with
  | nil => cases hb
  | cons d m ih =>
    rw [List.pairwise_cons] at hp
    rcases List.mem_cons.1 hb with hbd | hb <;> rcases List.mem_cons.1 hc with hcd | hc
    · rw [hbd, hcd]
    · have := hp.1 c hc
      subst hbd
      omega
    · have := hp.1 b hb
      subst hcd
      omega
    · exact ih hb hc hp.2

/-- In a canonical memory the buffer found for a range that is not empty is the one that holds it. -/
theorem bufferOf_of_holds {m : Memory} (hm : m.wf) {b : Buffer} {a n : Nat} (hb : b ∈ m) (hn : n ≠ 0)
    (h : b.holds a n) : bufferOf m a n = some b := by
  obtain ⟨c, hc⟩ := Option.isSome_iff_exists.1 ((bufferOf_isSome m a n).2 ⟨b, hb, h⟩)
  obtain ⟨hcm, hch⟩ := bufferOf_holds hc
  rw [hc, buffer_unique hm hcm hb (a := a) (by omega) (by omega)]

/-- A read inside a buffer of a canonical memory is the byte at that index. -/
theorem memRead_of_holds {m : Memory} (hm : m.wf) {b : Buffer} {a : Nat} (hb : b ∈ m) (h : b.holds a 1) :
    memRead m a = b.bytes[a - b.base]? := by
  simp only [memRead, bufferOf_of_holds hm hb (by decide) h]

/-- A range inside a buffer of a canonical memory reads as that stretch of its bytes. -/
theorem memReadRange_of_holds {m : Memory} (hm : m.wf) {b : Buffer} {a n : Nat} (hb : b ∈ m) (hn : n ≠ 0)
    (h : b.holds a n) : memReadRange m a n = some ((b.bytes.drop (a - b.base)).take n) := by
  simp only [memReadRange, bufferOf_of_holds hm hb hn h]

/-- A range is read exactly where it is wholly inside a buffer. -/
theorem memReadRange_isSome (m : Memory) (a n : Nat) : (memReadRange m a n).isSome = true ↔ m.inside a n := by
  rw [← bufferOf_isSome]
  unfold memReadRange
  cases bufferOf m a n <;> simp

/-- An address is read exactly where it is in a buffer. -/
theorem memRead_isSome (m : Memory) (a : Nat) : (memRead m a).isSome = true ↔ m.inside a 1 := by
  rw [← bufferOf_isSome]
  unfold memRead
  cases h : bufferOf m a 1 with
  | none => simp
  | some b =>
    have := (bufferOf_holds h).2
    have hlt : a - b.base < b.bytes.length := by omega
    simp [hlt]

/-- Everything a write does to the extents: each buffer stays where it is. -/
theorem memWrite_extents {m m' : Memory} {a : Nat} {v : Byte} (h : memWrite m a v = some m') :
    m'.map (fun b => (b.base, b.bytes.length)) = m.map fun b => (b.base, b.bytes.length) := by
  induction m generalizing m' with
  | nil => simp [memWrite] at h
  | cons b m ih =>
    unfold memWrite at h
    split at h
    · obtain rfl := Option.some.inj h
      simp
    · split at h
      · rename_i m₁ hm
        obtain rfl := Option.some.inj h
        simp only [List.map_cons, ih hm]
      · cases h

/-- The canonical form is a property of the extents alone. -/
theorem wf_of_extents {m m' : Memory}
    (h : m'.map (fun b => (b.base, b.bytes.length)) = m.map fun b => (b.base, b.bytes.length)) (hm : m.wf) :
    m'.wf := by
  induction m' generalizing m with
  | nil => simp [Memory.wf]
  | cons b' m' ih =>
    cases m with
    | nil => cases h
    | cons b m =>
      simp only [List.map_cons, List.cons.injEq, Prod.mk.injEq] at h
      obtain ⟨⟨hbase, hlen⟩, htail⟩ := h
      obtain ⟨hne, hp⟩ := hm
      rw [List.pairwise_cons] at hp
      obtain ⟨hne', hp'⟩ := ih htail ⟨fun c hc => hne c (List.mem_cons_of_mem _ hc), hp.2⟩
      refine ⟨fun c hc => ?_, List.pairwise_cons.2 ⟨fun c hc => ?_, hp'⟩⟩
      · rcases List.mem_cons.1 hc with rfl | hc
        · rw [← List.length_pos_iff, hlen, List.length_pos_iff]
          exact hne b List.mem_cons_self
        · exact hne' c hc
      · have hmem : (c.base, c.bytes.length) ∈ m.map fun d => (d.base, d.bytes.length) :=
          htail ▸ List.mem_map_of_mem (f := fun d : Buffer => (d.base, d.bytes.length)) hc
        obtain ⟨d, hd, heq⟩ := List.mem_map.1 hmem
        have := hp.1 d hd
        simp only [Prod.mk.injEq] at heq
        omega

/-- A write keeps the canonical form. -/
theorem memWrite_wf {m m' : Memory} {a : Nat} {v : Byte} (h : memWrite m a v = some m') (hm : m.wf) : m'.wf :=
  wf_of_extents (memWrite_extents h) hm

/-- A write answers exactly where the address is in a buffer. -/
theorem memWrite_isSome (m : Memory) (a : Nat) (v : Byte) :
    (memWrite m a v).isSome = true ↔ m.inside a 1 := by
  induction m with
  | nil => simp [memWrite, Memory.inside]
  | cons b m ih =>
    unfold memWrite
    split
    · rename_i hb
      simp only [Option.isSome_some, true_iff]
      exact ⟨b, List.mem_cons_self, hb⟩
    · rename_i hb
      have : Memory.inside (b :: m) a 1 ↔ Memory.inside m a 1 := by simp [Memory.inside, hb]
      rw [this, ← ih]
      cases memWrite m a v <;> simp

/-- A read looks at the first buffer that has the address, and else at the rest of the memory. -/
theorem memRead_cons (b : Buffer) (m : Memory) (a : Nat) :
    memRead (b :: m) a = if b.holds a 1 then b.bytes[a - b.base]? else memRead m a := by
  unfold memRead bufferOf
  rw [List.find?_cons]
  by_cases h : b.holds a 1
  · rw [decide_eq_true h, if_pos h]
  · rw [decide_eq_false h, if_neg h]

/-- A read after a write: the byte written at its address, and every other address as before. -/
theorem memRead_memWrite {m m' : Memory} {a : Nat} {v : Byte} (h : memWrite m a v = some m') (a' : Nat) :
    memRead m' a' = if a' = a then some v else memRead m a' := by
  induction m generalizing m' with
  | nil => simp [memWrite] at h
  | cons b m ih =>
    unfold memWrite at h
    split at h
    · rename_i hb
      obtain rfl := Option.some.inj h
      simp only [memRead_cons, Buffer.holds, List.length_set] at hb ⊢
      by_cases ha : a' = a
      · subst ha
        have : a' - b.base < b.bytes.length := by omega
        rw [if_pos hb, if_pos rfl, List.getElem?_set_self this]
      · rw [if_neg ha]
        split
        · rw [List.getElem?_set_ne (by omega)]
        · rfl
    · rename_i hb
      split at h
      · rename_i m₁ hm
        obtain rfl := Option.some.inj h
        rw [memRead_cons, memRead_cons, ih hm]
        by_cases ha : a' = a
        · subst ha
          simp [hb]
        · simp [ha]
      · cases h

/-- APPEND, the one message-level operation that writes, keeps the canonical form. -/
theorem appendCrc_wf {m m' : Memory} {frame n : Nat} (h : appendCrc m frame n = .ok m') (hm : m.wf) : m'.wf := by
  unfold appendCrc at h
  split at h
  · cases h
  · dsimp only at h
    split at h
    · cases h
    · rename_i m₁ h₁
      split at h
      · cases h
      · rename_i m₂ h₂
        cases h
        exact memWrite_wf h₂ (memWrite_wf h₁ hm)

end Sys2Proof.Laws
end

