-- ==== Sys2Proof/Laws/Message.lean ====
section
/-! SUPPORT. The fold of the update over a byte sequence, one byte at either end. -/

namespace Sys2Proof.Laws

open Sys2Proof.Machine

@[simp] theorem crc16From_nil (c : Word) : crc16From c [] = c := rfl

@[simp] theorem crc16From_cons (c : Word) (b : Byte) (bs : List Byte) :
    crc16From c (b :: bs) = crc16From (crcUpdate c b) bs := rfl

/-- One byte more at the end is one update more. -/
theorem crc16From_concat (c : Word) (bs : List Byte) (b : Byte) :
    crc16From c (bs ++ [b]) = crcUpdate (crc16From c bs) b := by
  simp [crc16From]

end Sys2Proof.Laws
end

