-- ==== Sys2Proof/Laws/Operands.lean ====
section
/-! SUPPORT. The byte views of a 16-bit value under XOR, shift and concatenation, and the linearity of one
reduction step. -/

namespace Sys2Proof.Laws

open Sys2Proof.Machine

@[simp] theorem lowByte_joinBytes (hi lo : Byte) : lowByte (joinBytes hi lo) = lo := by
  apply BitVec.eq_of_getLsbD_eq
  intro k hk
  simp only [lowByte, joinBytes, BitVec.getLsbD_extractLsb', BitVec.getLsbD_append]
  simp [hk]

@[simp] theorem highByte_joinBytes (hi lo : Byte) : highByte (joinBytes hi lo) = hi := by
  apply BitVec.eq_of_getLsbD_eq
  intro k hk
  simp only [highByte, joinBytes, BitVec.getLsbD_extractLsb', BitVec.getLsbD_append]
  simp [hk]

@[simp] theorem lowByte_xor (u v : Word) : lowByte (u ^^^ v) = lowByte u ^^^ lowByte v := by
  simp [lowByte, BitVec.extractLsb'_xor]

@[simp] theorem highByte_xor (u v : Word) : highByte (u ^^^ v) = highByte u ^^^ highByte v := by
  simp [highByte, BitVec.extractLsb'_xor]

/-- A 16-bit value is its two bytes. -/
theorem joinBytes_bytes (v : Word) : joinBytes (highByte v) (lowByte v) = v := by
  apply BitVec.eq_of_getLsbD_eq
  intro k hk
  simp only [joinBytes, highByte, lowByte, BitVec.getLsbD_append, BitVec.getLsbD_extractLsb']
  by_cases h : k < 8
  · simp [h]
  · have h8 : 8 + (k - 8) = k := by omega
    have hk' : k - 8 < 8 := by omega
    simp [h, h8, hk']

/-- Two 16-bit values with the same bytes are equal. -/
theorem word_ext {u v : Word} (hh : highByte u = highByte v) (hl : lowByte u = lowByte v) : u = v := by
  rw [← joinBytes_bytes u, ← joinBytes_bytes v, hh, hl]

/-- The shift by eight moves the high byte down. -/
@[simp] theorem lowByte_shiftRight_eight (v : Word) : lowByte (v >>> 8) = highByte v := by
  ext k hk
  simp [lowByte, highByte, BitVec.getLsbD_ushiftRight]

/-- The shift by eight leaves a zero high byte. -/
@[simp] theorem highByte_shiftRight_eight (v : Word) : highByte (v >>> 8) = 0x00#8 := by
  apply BitVec.eq_of_getLsbD_eq
  intro k hk
  simp only [highByte, BitVec.getLsbD_extractLsb', BitVec.getLsbD_ushiftRight]
  have h : v.getLsbD (8 + (8 + k)) = false := BitVec.getLsbD_of_ge v _ (by omega)
  simp [h]

/-- One reduction step is linear over XOR. -/
theorem step1_xor (u v : Word) : step1 (u ^^^ v) = step1 u ^^^ step1 v := by
  unfold step1
  rw [BitVec.getLsbD_xor, BitVec.ushiftRight_xor_distrib]
  generalize u >>> 1 = a, v >>> 1 = b, Config.poly = p
  cases u.getLsbD 0 <;> cases v.getLsbD 0
  · rfl
  · simp [BitVec.xor_assoc]
  · simp [BitVec.xor_assoc, BitVec.xor_comm p b]
  · have h : a ^^^ p ^^^ (b ^^^ p) = a ^^^ b ^^^ (p ^^^ p) := by ac_rfl
    simp [h]

/-- Eight reduction steps are linear over XOR. -/
theorem step8_xor (u v : Word) : step8 (u ^^^ v) = step8 u ^^^ step8 v := by
  simp only [step8, step1_xor]

end Sys2Proof.Laws
end

