-- ==== Sys2Proof/Laws/State.lean ====
section
/-! SUPPORT. One lemma per field per update of the state. -/

namespace Sys2Proof.Laws

open Sys2Proof.Machine

@[simp] theorem writeCrc_crc (s : State) (v : Word) : (s.writeCrc v).crc = v := rfl
@[simp] theorem writeCrc_inputs (s : State) (v : Word) : (s.writeCrc v).inputs = s.inputs := rfl
@[simp] theorem writeCrc_freeDraws (s : State) (v : Word) : (s.writeCrc v).freeDraws = s.freeDraws := rfl
@[simp] theorem readCrc_writeCrc (s : State) (v : Word) : (s.writeCrc v).readCrc = v := rfl
@[simp] theorem writeCrc_writeCrc (s : State) (u v : Word) : (s.writeCrc u).writeCrc v = s.writeCrc v := rfl
@[simp] theorem writeCrc_readCrc (s : State) : s.writeCrc s.readCrc = s := rfl

@[simp] theorem reset_crc : State.reset.crc = Config.seed := rfl
@[simp] theorem reset_inputs : State.reset.inputs = [] := rfl
@[simp] theorem reset_freeDraws : State.reset.freeDraws = 0 := rfl

end Sys2Proof.Laws
end

