-- ==== Sys2Proof/Laws/Ops.lean ====
section
/-! SUPPORT. What the shared operations on the step's input do: the two cases of the placed inputs, and the
frame of taking an input. -/

namespace Sys2Proof.Laws

open Sys2Proof.Machine

/-- Where an input is placed, it is the one presented. -/
theorem presented_of_cons {s : State} {x : StepInput} {rest : List StepInput} (h : s.inputs = x :: rest) :
    s.presented = x := by
  simp only [State.presented, h]

/-- Where an input is placed, taking it leaves the inputs behind it. -/
theorem takeInput_of_cons {s : State} {x : StepInput} {rest : List StepInput} (h : s.inputs = x :: rest) :
    s.takeInput = { s with inputs := rest } := by
  simp only [State.takeInput, h]

/-- Where nothing is placed, the input is the next free one. -/
theorem presented_of_nil {s : State} (h : s.inputs = []) :
    s.presented = { rst := Config.freeRst s.freeDraws, word := Config.freeWord s.freeDraws } := by
  simp only [State.presented, h]

/-- Where nothing is placed, taking an input counts one more free draw. -/
theorem takeInput_of_nil {s : State} (h : s.inputs = []) :
    s.takeInput = { s with freeDraws := s.freeDraws + 1 } := by
  simp only [State.takeInput, h]

/-- Taking an input never touches the register. -/
@[simp] theorem takeInput_crc (s : State) : s.takeInput.crc = s.crc := by
  unfold State.takeInput
  split <;> rfl

/-- What a write of the register leaves alone: the input that stands on the ports. -/
@[simp] theorem presented_writeCrc (s : State) (v : Word) : (s.writeCrc v).presented = s.presented := rfl

/-- A write of the register and the taking of an input commute. -/
theorem takeInput_writeCrc (s : State) (v : Word) : (s.writeCrc v).takeInput = s.takeInput.writeCrc v := by
  unfold State.takeInput State.writeCrc
  cases s.inputs <;> rfl

end Sys2Proof.Laws
end

