-- ==== Sys2Proof/Laws/PerInstr.lean ====
section
/-! SUPPORT. The family EncodedRow: the encoded word of a command selects the command's row of the opcode map
(R40). -/

/-- The encoded word, masked, is the `match` value of the command's row. -/
def Sys2Proof.Laws.EncodedRow.Statement (i : Sys2Proof.Instr) : Prop :=
  Sys2Proof.encode i &&& Sys2Proof.opcodeMask = Sys2Proof.opcodeMatch i

namespace Sys2Proof.Laws.EncodedRow

theorem hold : Statement .hold := rfl

theorem init : Statement .init := rfl

theorem upd (b : Byte) : Statement (.upd b) := by
  unfold Statement
  revert b
  decide

theorem initupd (b : Byte) : Statement (.initupd b) := by
  unfold Statement
  revert b
  decide

end Sys2Proof.Laws.EncodedRow
end

