-- ==== Sys2Proof/Laws/Run.lean ====
section
/-! SUPPORT. The run of the machine, one step at a time. -/

namespace Sys2Proof.Laws

open Sys2Proof.Machine

@[simp] theorem runSteps_zero (s : State) : runSteps 0 s = .next s := rfl

/-- One more step: where the first step answers `t`, the rest of the run starts from `t`. -/
theorem runSteps_succ_of_next {k : Nat} {s t : State} (h : step s = .next t) :
    runSteps (k + 1) s = runSteps k t := by
  simp only [runSteps, Host.Core.run, Sys2Proof.core]
  rw [h]

@[simp] theorem runCrc_nil (c : Word) : runCrc c [] = c := rfl

@[simp] theorem runCrc_cons (c : Word) (x : StepInput) (xs : List StepInput) :
    runCrc c (x :: xs) = runCrc (nextCrc c x) xs := rfl

end Sys2Proof.Laws
end

