-- ==== Sys2Proof/Tests/Slice0.lean ====
section
/-! SUPPORT. Tests of the model against the spec's own tables and traces (spec/95_test_vectors.md and the
worked examples of the rules), and a witness for every statement that has hypotheses. -/

namespace Sys2Proof.Tests

open Sys2Proof.Machine Sys2Proof.Safety

/-- A block with the given register and these command words presented next, `rst` at 0. -/
def block (crc : Word) (ws : List CmdWord) : State where
  crc := crc
  inputs := ws.map fun w => { rst := false, word := w }
  freeDraws := 0

/-- The register a step leaves, if it answers a next state. -/
def crcAfter : Host.Outcome State Fault Refusal → Option Word
  | .next t => some t.crc
  | .fault _ => none
  | .refused _ => none

/-- The frame `01 03 00 00 00 0A C5 CD` at the address 16 (spec/95_test_vectors.md V1). -/
def frameMemory : Memory :=
  [{ base := 16, bytes := [0x01#8, 0x03#8, 0x00#8, 0x00#8, 0x00#8, 0x0A#8, 0xC5#8, 0xCD#8] }]

/-- The same bytes before APPEND: the two places of the CRC hold zeros. -/
def dataMemory : Memory :=
  [{ base := 16, bytes := [0x01#8, 0x03#8, 0x00#8, 0x00#8, 0x00#8, 0x0A#8, 0x00#8, 0x00#8] }]

/-- The frame's bytes cut into two buffers that abut at the address 22. -/
def abuttingMemory : Memory :=
  [{ base := 16, bytes := [0x01#8, 0x03#8, 0x00#8, 0x00#8, 0x00#8, 0x0A#8] },
   { base := 22, bytes := [0xC5#8, 0xCD#8] }]

/-! ## Well-formedness: the canonical-word check refuses a word; no command is ill-formed (R42) -/

theorem test_canonical_check_refuses_hold_with_data : isCanonicalWord 0x0AB#10 = false := by decide
theorem test_canonical_check_refuses_init_with_data : isCanonicalWord 0x2FF#10 = false := by decide
theorem test_canonical_check_takes_upd_with_data : isCanonicalWord 0x10A#10 = true := by decide
theorem test_every_command_is_well_formed : Instr.wf .hold ∧ Instr.wf .init ∧ Instr.wf (.upd 0xFF#8) ∧ Instr.wf (.initupd 0x00#8) := by
  decide

/-! ## Decoding: words written out from R40, bits `init en data` -/

theorem test_decode_hold : decode 0b00_00000000#10 = .hold := by decide
theorem test_decode_hold_ignores_data : decode 0b00_11111111#10 = .hold := by decide
theorem test_decode_init : decode 0b10_00000000#10 = .init := by decide
theorem test_decode_init_ignores_data : decode 0b10_10101010#10 = .init := by decide
theorem test_decode_upd : decode 0b01_00001010#10 = .upd 0x0A#8 := by decide
theorem test_decode_initupd : decode 0b11_00000001#10 = .initupd 0x01#8 := by decide
theorem test_encode_upd : encode (.upd 0x0A#8) = 0x10A#10 := by decide
theorem test_encode_initupd : encode (.initupd 0xFF#8) = 0x3FF#10 := by decide
theorem test_decode_table_word : decodeTableWord 16 0x1C5 = some (.upd 0xC5#8) := by decide

/-! ## One step of each command (spec/95_test_vectors.md T-HOLD, T-INIT, T-UPD, T-INITUPD, T-RESET) -/

theorem test_hold_noncanonical : crcAfter (step (block 0x1234#16 [0x0AB#10])) = some 0x1234#16 := by decide
theorem test_init_abandons : crcAfter (step (block 0xCDC5#16 [0x200#10])) = some 0xFFFF#16 := by decide
theorem test_init_noncanonical : crcAfter (step (block 0x1234#16 [0x2FF#10])) = some 0xFFFF#16 := by decide
theorem test_upd_example : crcAfter (step (block 0x8419#16 [0x10A#10])) = some 0xCDC5#16 := by decide
theorem test_upd_reaches_zero : crcAfter (step (block 0x00CD#16 [0x1CD#10])) = some 0x0000#16 := by decide
theorem test_initupd_ignores_old : crcAfter (step (block 0xBEEF#16 [0x331#10])) = some 0x947E#16 := by decide
theorem test_initupd_all_ones : crcAfter (step (block 0x0000#16 [0x3FF#10])) = some 0x00FF#16 := by decide
theorem test_reset_overrides_upd :
    crcAfter (step { block 0xCDC5#16 [] with inputs := [{ rst := true, word := 0x101#10 }] }) = some 0xFFFF#16 := by
  decide
theorem test_fetch_word_runs_first :
    crcAfter (step (State.reset.withFetchWord 16 0x101)) = some 0x807E#16 := by decide

/-! ## Table, update and message level (R24, R54, R57, R64; T-INV, T-XOR; V1, V3, T-M6) -/

theorem test_table_spot_values :
    tableRead 0x13#8 = 0xCD41#16 ∧ tableRead 0x7D#8 = 0x21C0#16 ∧ tableRead 0xCE#8 = 0x9481#16 ∧ tableRead 0xFF#8 = 0x4040#16 := by
  decide
theorem test_step8_trace : step8 0xFFFE#16 = 0x807E#16 := by decide
theorem test_xor_network : crcXorUpdate 0xABCD#16 0xEF#8 = 0x192B#16 := by decide
theorem test_unupdate : crcUnupdate 0xCDC5#16 0x0A#8 = 0x8419#16 := by decide
theorem test_wire_order : crcWire (block 0xCDC5#16 []) = 0xC5CD#16 := by decide
theorem test_check_string :
    crc16 [0x31#8, 0x32#8, 0x33#8, 0x34#8, 0x35#8, 0x36#8, 0x37#8, 0x38#8, 0x39#8] = 0x4B37#16 := by rfl
theorem test_check_table_of_request : modbusCrcCheckTable frameMemory (some 16) 6 = .ok 0xCDC5#16 := by rfl
theorem test_residue_of_frame : modbusCrcCheckTable frameMemory (some 16) 8 = .ok 0x0000#16 := by rfl
theorem test_append_completes_the_frame : appendCrc dataMemory 16 6 = .ok frameMemory := by rfl
theorem test_memories_are_canonical : frameMemory.wf ∧ dataMemory.wf ∧ abuttingMemory.wf := by decide
theorem test_memory_check_refuses_overlap :
    ¬ Memory.wf [{ base := 16, bytes := [0x01#8, 0x03#8] }, { base := 17, bytes := [0x03#8] }] := by decide
theorem test_memory_check_refuses_empty_buffer : ¬ Memory.wf [{ base := 16, bytes := [] }] := by decide
theorem test_length_beyond_the_buffer_is_refused :
    modbusCrcCheckTable abuttingMemory (some 16) 8 = .error .outsideBuffer := by rfl
theorem test_append_into_an_abutting_buffer_is_refused :
    appendCrc abuttingMemory 16 6 = .error .outsideBuffer := by rfl

/-! ## Witnesses: a concrete state and operands that meet the hypotheses of each statement -/

theorem witness_StepRunsThePresentedCommand :
    (block 0xFFFF#16 [0x101#10]).inputs = { rst := false, word := 0x101#10 } :: [] ∧
    State.reset.inputs = [] ∧ 10 ≤ 10 ∧ 10 ≤ 16 ∧ 0x000 < 1024 ∧ 0x3FF < 1024 := by decide

/-- A state at whose next step `rst` is 1, the word being UPD 0x01, and then one command. -/
def resetNext : State :=
  { block 0x1234#16 [] with inputs := [{ rst := true, word := 0x101#10 }, { rst := false, word := 0x301#10 }] }

theorem witness_ResetStepLoadsTheSeedWhateverTheWord : resetNext.presented.rst = true := by decide

theorem witness_HeldResetLeavesTheSeedAndRecoversAtOnce :
    ([{ rst := true, word := 0x101#10 }] : List StepInput) ≠ [] ∧
    (∀ x ∈ ([{ rst := true, word := 0x101#10 }] : List StepInput), x.rst = true) ∧
    resetNext.inputs = [{ rst := true, word := 0x101#10 }] ++ [{ rst := false, word := 0x301#10 }] ∧
    ({ rst := false, word := 0x301#10 } : StepInput).rst = false := by decide

theorem witness_NextRegisterDependsOnRegisterAndInputAlone :
    (block 0x1234#16 [0x101#10]).crc = (block 0x1234#16 [0x101#10, 0x200#10]).crc ∧
    (block 0x1234#16 [0x101#10]).presented = (block 0x1234#16 [0x101#10, 0x200#10]).presented := by decide

theorem witness_ByteNotConsumedHasNoEffect :
    byteConsumed { rst := false, word := 0x2FF#10 } = none ∧ byteConsumed { rst := true, word := 0x1FF#10 } = none := by
  decide

theorem witness_RegisterChangesOnlyBySeedingOrAByte :
    step (block 0x0000#16 [0x200#10]) = .next (block 0xFFFF#16 []) ∧
    (block 0xFFFF#16 []).crc ≠ (block 0x0000#16 [0x200#10]).crc := ⟨rfl, by decide⟩

theorem witness_StepTakesExactlyOneInput :
    step (block 0x0000#16 [0x000#10, 0x200#10]) = .next (block 0x0000#16 [0x200#10]) := rfl

theorem witness_HoldKeepsTheRegister :
    (∀ x ∈ (block 0x1234#16 [0x0AB#10, 0x000#10]).inputs, x.rst = false ∧ decode x.word = .hold) ∧
    (block 0x1234#16 [0x0AB#10, 0x000#10, 0x101#10]).inputs =
      (block 0x1234#16 [0x0AB#10, 0x000#10]).inputs ++ [{ rst := false, word := 0x101#10 }] := by decide

theorem witness_UpdCornerCasesComeOutAsListed :
    ∀ c : Word, (block c []).crc = c := fun _ => rfl

theorem witness_CommandsChangeNothingButTheRegister : exec .hold State.reset = .next State.reset := rfl

theorem witness_OutputsShowTheRegister : (block 0x1234#16 []).crc = (block 0x1234#16 [0x200#10]).crc := by decide

theorem witness_SeedingForgetsTheOldRegister :
    seeding (block 0x1234#16 [0x200#10]).presented = true ∧ seeding (block 0x1234#16 [0x301#10]).presented = true ∧
    seeding resetNext.presented = true := by decide

theorem witness_EveryValueIsTwoUpdsFromTheSeed :
    State.reset.crc = 0xFFFF#16 ∧ crcUpdate (crcUpdate 0xFFFF#16 0x01#8) 0x03#8 = 0x2140#16 := by decide

theorem witness_TableStructure :
    highByte (tableRead 0x13#8) = highByte (tableRead 0x13#8) ∧ tableRead 0x00#8 = 0x0000#16 := by decide

theorem witness_UnupdateInvertsUpdate : crcUpdate 0x8419#16 0x0A#8 = crcUpdate 0x8419#16 0x0A#8 := rfl

theorem witness_EveryStepKeepsRegisterAsCrcOfItsMessage :
    (block 0x807E#16 [0x103#10]).crc = crc16 [0x01#8] ∧
    step (block 0x807E#16 [0x103#10]) = .next (block 0x2140#16 []) := ⟨by decide, rfl⟩

theorem witness_SeededMessageLeavesItsCrc16 :
    oneMessage (block 0x1234#16 [0x301#10, 0x000#10, 0x103#10]).inputs = true ∧
    (block 0x1234#16 [0x301#10, 0x000#10, 0x103#10, 0x200#10]).inputs =
      (block 0x1234#16 [0x301#10, 0x000#10, 0x103#10]).inputs ++ [{ rst := false, word := 0x200#10 }] ∧
    oneMessage (block 0x1234#16 [0x200#10]).inputs = true ∧ oneMessage [{ rst := true, word := 0x101#10 }] = true := by
  decide

theorem witness_UnseededBytesContinueTheOldMessage :
    (∀ x ∈ (block 0x0000#16 [0x101#10, 0x0FF#10]).inputs, seeding x = false) ∧
    (block 0x0000#16 [0x101#10, 0x0FF#10]).inputs = (block 0x0000#16 [0x101#10, 0x0FF#10]).inputs ++ [] := by decide

theorem witness_RunAppliesItsInputsInOrder :
    (block 0x1234#16 [0x200#10, 0x101#10]).inputs =
      [{ rst := false, word := 0x200#10 }] ++ [{ rst := false, word := 0x101#10 }] := by decide

theorem witness_ZeroOutputJudgesTheWholeFrame :
    oneMessage (block 0x1234#16 [0x200#10, 0x1FF#10, 0x1FF#10]).inputs = true ∧
    (block 0x1234#16 [0x200#10, 0x1FF#10, 0x1FF#10]).inputs =
      (block 0x1234#16 [0x200#10, 0x1FF#10, 0x1FF#10]).inputs ++ [] ∧
    bytesConsumed (block 0x1234#16 [0x200#10, 0x1FF#10, 0x1FF#10]).inputs = [] ++ [0xFF#8, 0xFF#8] := by decide

theorem witness_OperandMeetsTheLowByteBitForBit : wordEn 0x1FF#10 = true ∧ 7 < 8 := by decide

theorem witness_ComparisonAcceptsExactlyTheRightTrailer : ([] : List Byte).length < 2 ∧ ([0xC5#8] : List Byte).length < 2 := by decide

theorem witness_SingleByteChangeAlwaysChangesTheCrc : (0x0A#8 : Byte) ≠ 0x0B#8 ∧ 0 < 8 ∧ 7 < 8 := by decide

theorem witness_CheckTableComputesOverExactlyItsBytes :
    frameMemory.wf ∧ frameMemory.inside 22 2 ∧
    ∀ i, i < 2 → memRead frameMemory (22 + i) = ([0xC5#8, 0xCD#8] : List Byte)[i]? := by decide

theorem witness_BufferIsReadInAscendingOrder :
    abuttingMemory.wf ∧ memReadRange abuttingMemory 22 2 = some [0xC5#8, 0xCD#8] ∧
    memReadRange abuttingMemory 21 2 = none := by decide

theorem witness_CallsOutsideABufferAreRefused :
    (1 : Nat) ≠ 0 ∧ 8 < 9 ∧ memRead frameMemory (16 + 8) = none ∧ frameMemory.inside 16 8 ∧
    ¬ abuttingMemory.inside 21 2 ∧ ¬ frameMemory.inside 16 9 := by decide

theorem witness_AppendWritesTheCrcLowByteFirst :
    dataMemory.wf ∧ dataMemory.inside 16 (6 + 2) ∧
    memReadRange dataMemory 16 6 = some [0x01#8, 0x03#8, 0x00#8, 0x00#8, 0x00#8, 0x0A#8] ∧
    ¬ abuttingMemory.inside 16 (6 + 2) := by decide

theorem witness_AppendedFrameVerifiesInTheBuffer :
    dataMemory.wf ∧ appendCrc dataMemory 16 6 = .ok frameMemory := ⟨by decide, by rfl⟩

end Sys2Proof.Tests
end

section
/-! The outputs as functions of the register (R13, R14, R16, R39), and the values after a Reset step and at
power-on (R19). -/

namespace Sys2Proof.Proofs

open Sys2Proof.Machine Sys2Proof.Laws

@[simp] theorem crcOut_eq_crc (s : State) : crcOut s = s.crc := rfl

@[simp] theorem highByte_crcWire (s : State) : highByte (crcWire s) = lowByte s.crc :=
  highByte_joinBytes _ _

@[simp] theorem lowByte_crcWire (s : State) : lowByte (crcWire s) = highByte s.crc :=
  lowByte_joinBytes _ _

theorem zeroFlag_eq_true_iff (s : State) : zeroFlag s = true ↔ s.crc = 0x0000#16 :=
  beq_iff_eq

@[simp] theorem powerOn_crc (n : Nat) : (State.powerOn n).crc = Config.powerOnCrc n := rfl

/-- The three outputs right after a Reset step (R19). -/
theorem observe_reset :
    observe State.reset = { crcOut := 0xFFFF#16, crcWire := 0xFFFF#16, zero := false } := by
  decide

/-- Settles O25: the reset state is one closed value, and the outputs of any state, the power-on states
included, are those of its register. -/
theorem resetAndPowerOnValues : Obligations.ResetAndPowerOnValues :=
  ⟨reset_crc, observe_reset, fun n =>
    ⟨powerOn_crc n, crcOut_eq_crc (.powerOn n), highByte_crcWire (.powerOn n),
      lowByte_crcWire (.powerOn n), zeroFlag_eq_true_iff (.powerOn n)⟩⟩

end Sys2Proof.Proofs
end

section
/-! The table ROM against its generation rule (R23): the 256 stored entries are what the bitwise reference
computes, hence a table read is eight reductions of its index. -/

namespace Sys2Proof.Proofs

open Sys2Proof.Machine

/-- What the generation rule gives at the `n` indices from `start` on (R23). -/
def regeneratedEntries (start n : Nat) : List Word :=
  (List.range' start n).map fun i => step8 (zext16 (BitVec.ofNat 8 i))

theorem regeneratedEntries_append (start m n : Nat) :
    regeneratedEntries start m ++ regeneratedEntries (start + m) n = regeneratedEntries start (m + n) := by
  simp only [regeneratedEntries, ← List.map_append, List.range'_append_1]

theorem tableRom0_eq_regeneratedEntries : tableRom0 = regeneratedEntries 0x00 64 := by decide
theorem tableRom1_eq_regeneratedEntries : tableRom1 = regeneratedEntries 0x40 64 := by decide
theorem tableRom2_eq_regeneratedEntries : tableRom2 = regeneratedEntries 0x80 64 := by decide
theorem tableRom3_eq_regeneratedEntries : tableRom3 = regeneratedEntries 0xC0 64 := by decide

/-- Rebuilding the table from the bitwise reference reproduces the stored one exactly (R23), quarter by
quarter. -/
theorem tableRom_eq_regeneratedEntries : tableRom = regeneratedEntries 0 256 := by
  rw [tableRom, tableRom0_eq_regeneratedEntries, tableRom1_eq_regeneratedEntries,
    tableRom2_eq_regeneratedEntries, tableRom3_eq_regeneratedEntries]
  simp only [regeneratedEntries_append 0 64 64, regeneratedEntries_append 0 128 64,
    regeneratedEntries_append 0 192 64]

/-- A table read is eight reductions of its index (R23). -/
theorem tableRead_eq_step8 (i : Byte) : tableRead i = step8 (zext16 i) := by
  simp only [tableRead, tableRom_eq_regeneratedEntries, regeneratedEntries, List.getElem_map,
    List.getElem_range', Nat.zero_add, Nat.one_mul, BitVec.ofNat_toNat, BitVec.setWidth_eq]

/-- From accumulator zero the bitwise update reduces the byte alone (R65). -/
theorem crcBitwiseUpdate_zero (b : Byte) : crcBitwiseUpdate 0x0000#16 b = step8 (zext16 b) := by
  rw [crcBitwiseUpdate, BitVec.zero_xor]

/-- Settles O27: the stored table is the regenerated one, read entry by entry. -/
theorem tableEntriesAreEightReductions : Obligations.TableEntriesAreEightReductions := fun i =>
  ⟨tableRead_eq_step8 i, (tableRead_eq_step8 i).trans (crcBitwiseUpdate_zero i).symm⟩

end Sys2Proof.Proofs
end

section
/-! The command word's three fields (R38), the mask of the opcode map (R40), and what the decoder and the
encoder make of them (R42, R45). -/

namespace Sys2Proof.Proofs

open Sys2Proof.Machine Sys2Proof.Laws

/-! ### The fields of a word -/

@[simp] theorem wordInit_commandWord (init en : Bool) (d : Byte) : wordInit (commandWord init en d) = init := by
  simp only [wordInit, commandWord, BitVec.getLsbD_append]
  simp

@[simp] theorem wordEn_commandWord (init en : Bool) (d : Byte) : wordEn (commandWord init en d) = en := by
  simp only [wordEn, commandWord, BitVec.getLsbD_append]
  simp

@[simp] theorem wordData_commandWord (init en : Bool) (d : Byte) : wordData (commandWord init en d) = d := by
  apply BitVec.eq_of_getLsbD_eq
  intro k hk
  simp only [wordData, commandWord, BitVec.getLsbD_extractLsb', BitVec.getLsbD_append]
  simp [hk]

theorem getLsbD_wordData (w : CmdWord) {k : Nat} (hk : k < 8) : (wordData w).getLsbD k = w.getLsbD k := by
  simp [wordData, hk]

/-- A word is determined by its three fields (R38). -/
theorem cmdWord_ext {w v : CmdWord} (hi : wordInit w = wordInit v) (he : wordEn w = wordEn v)
    (hd : wordData w = wordData v) : w = v := by
  apply BitVec.eq_of_getLsbD_eq
  intro k hk
  obtain hlt | rfl | rfl : k < 8 ∨ k = 8 ∨ k = 9 := by omega
  · rw [← getLsbD_wordData w hlt, hd, getLsbD_wordData v hlt]
  · exact he
  · exact hi

/-- The mask keeps the two opcode bits and clears the `data` field (R40). -/
theorem and_opcodeMask (w : CmdWord) : w &&& opcodeMask = commandWord (wordInit w) (wordEn w) 0x00#8 := by
  apply cmdWord_ext
  · rw [wordInit_commandWord]
    simp [wordInit, opcodeMask]
  · rw [wordEn_commandWord]
    simp [wordEn, opcodeMask]
  · rw [wordData_commandWord, wordData, BitVec.extractLsb'_and]
    exact BitVec.and_zero

/-- Two words with an empty `data` field are equal exactly where their opcode bits are. -/
theorem commandWord_zero_inj {init en init' en' : Bool} :
    commandWord init en 0x00#8 = commandWord init' en' 0x00#8 ↔ init = init' ∧ en = en' := by
  constructor
  · intro h
    constructor
    · simpa using congrArg wordInit h
    · simpa using congrArg wordEn h
  · rintro ⟨rfl, rfl⟩
    rfl

/-- `(W & mask) == match`, for the `match` value with these opcode bits, reads the two opcode bits (R40). -/
theorem and_opcodeMask_eq_iff (w : CmdWord) (init en : Bool) :
    w &&& opcodeMask = commandWord init en 0x00#8 ↔ wordInit w = init ∧ wordEn w = en := by
  rw [and_opcodeMask, commandWord_zero_inj]

/-! ### The decoder reads the two opcode bits, and the `data` field where `en` is 1 -/

theorem decode_eq_hold_iff (w : CmdWord) : decode w = .hold ↔ wordInit w = false ∧ wordEn w = false := by
  unfold decode
  cases wordInit w <;> cases wordEn w <;> simp

theorem decode_eq_init_iff (w : CmdWord) : decode w = .init ↔ wordInit w = true ∧ wordEn w = false := by
  unfold decode
  cases wordInit w <;> cases wordEn w <;> simp

theorem decode_eq_upd_iff (w : CmdWord) (b : Byte) :
    decode w = .upd b ↔ wordInit w = false ∧ wordEn w = true ∧ wordData w = b := by
  unfold decode
  cases wordInit w <;> cases wordEn w <;> simp

theorem decode_eq_initupd_iff (w : CmdWord) (b : Byte) :
    decode w = .initupd b ↔ wordInit w = true ∧ wordEn w = true ∧ wordData w = b := by
  unfold decode
  cases wordInit w <;> cases wordEn w <;> simp

@[simp] theorem decode_commandWord_hold (d : Byte) : decode (commandWord false false d) = .hold := by
  simp [decode_eq_hold_iff]

@[simp] theorem decode_commandWord_init (d : Byte) : decode (commandWord true false d) = .init := by
  simp [decode_eq_init_iff]

@[simp] theorem decode_commandWord_upd (d : Byte) : decode (commandWord false true d) = .upd d := by
  simp [decode_eq_upd_iff]

@[simp] theorem decode_commandWord_initupd (d : Byte) : decode (commandWord true true d) = .initupd d := by
  simp [decode_eq_initupd_iff]

/-- A word's own bits are taken over unchanged from a number of at least ten bits (log entry 6). -/
theorem tableWord_toNat {nbits : Nat} (h : 10 ≤ nbits) (w : CmdWord) : tableWord nbits w.toNat = w := by
  have hw : w.toNat < 2 ^ nbits := w.isLt.trans_le (Nat.pow_le_pow_right (by decide) h)
  rw [tableWord, Nat.mod_eq_of_lt hw, BitVec.ofNat_toNat, BitVec.setWidth_eq]

theorem decodeTableWord_toNat {nbits : Nat} (h : 10 ≤ nbits) (w : CmdWord) :
    decodeTableWord nbits w.toNat = some (decode w) := by
  rw [decodeTableWord, tableWord_toNat h]

/-! ### The encoder as port values -/

theorem encode_hold : encode .hold = commandWord false false 0x00#8 := rfl

theorem encode_init : encode .init = commandWord true false 0x00#8 := rfl

/-- The operand stands alone in the low eight bits, so adding it there is placing it in its field (R41). -/
theorem encode_upd (b : Byte) : encode (.upd b) = commandWord false true b := by
  revert b
  decide

theorem encode_initupd (b : Byte) : encode (.initupd b) = commandWord true true b := by
  revert b
  decide

/-! ### The statements about the encoding -/

/-- Settles O3: each `match` value is the word of its row's opcode bits with an empty `data` field, and both
sides of each row's equivalence say what those two bits are. -/
theorem wordSelectsItsOpcodeRow : Obligations.WordSelectsItsOpcodeRow := by
  refine ⟨fun w => ⟨?hold, ?init, ?upd, ?initupd, ?someRow⟩, rfl, rfl, fun b => ⟨rfl, rfl⟩⟩
  case hold => exact (and_opcodeMask_eq_iff w false false).trans (decode_eq_hold_iff w).symm
  case init => exact (and_opcodeMask_eq_iff w true false).trans (decode_eq_init_iff w).symm
  case upd =>
    rw [decode_eq_upd_iff]
    exact (and_opcodeMask_eq_iff w false true).trans (by simp [wordData])
  case initupd =>
    rw [decode_eq_initupd_iff]
    exact (and_opcodeMask_eq_iff w true true).trans (by simp [wordData])
  case someRow =>
    have h : w &&& 0x300#10 = commandWord (wordInit w) (wordEn w) 0x00#8 := and_opcodeMask w
    rw [h]
    cases wordInit w <;> cases wordEn w <;> decide

/-- The disassembler prints what the decoder answers, and no field of the word beside it (R42). -/
theorem disassemble_of_decode {w : CmdWord} {i : Instr} (h : decode w = i) :
    disassemble w = itemText (.command i) := by
  rw [disassemble, h]

/-- Settles O4: the decoder, and with it the disassembler, looks at the two opcode bits of HOLD and INIT and
at no other; the encoder leaves their field empty. -/
theorem ignoredDataFieldNeverMatters : Obligations.IgnoredDataFieldNeverMatters := by
  refine ⟨fun d => ⟨decode_commandWord_hold d, decode_commandWord_init d, decode_commandWord_upd d,
    decode_commandWord_initupd d, disassemble_of_decode (decode_commandWord_hold d),
    disassemble_of_decode (decode_commandWord_init d)⟩, ?_, ?_, fun w => ⟨decode w, rfl, ?_⟩⟩
  · rw [encode_hold, wordData_commandWord]
  · rw [encode_init, wordData_commandWord]
  · exact decodeTableWord_toNat (by decide) w

end Sys2Proof.Proofs
end

section
/-! Where the operand meets the accumulator (R28, R41). -/

namespace Sys2Proof.Proofs

open Sys2Proof.Machine Sys2Proof.Laws

@[simp] theorem lowByte_zext16 (b : Byte) : lowByte (zext16 b) = b := by
  apply BitVec.eq_of_getLsbD_eq
  intro k hk
  have hk' : k < 16 := by omega
  simp [lowByte, zext16, hk, hk']

@[simp] theorem highByte_zext16 (b : Byte) : highByte (zext16 b) = 0x00#8 := by
  apply BitVec.eq_of_getLsbD_eq
  intro k hk
  simp [highByte, zext16]

theorem zext16_eq_joinBytes (b : Byte) : zext16 b = joinBytes 0x00#8 b := by
  apply word_ext <;> simp

/-- XORed into the low byte of the accumulator, the zero-extended operand gives the table index (R41, R48). -/
theorem lowByte_xor_zext16 (c : Word) (b : Byte) : lowByte (c ^^^ zext16 b) = tableIndex c b := by
  rw [lowByte_xor, lowByte_zext16, tableIndex]

/-- The XOR of the zero-extended operand leaves the high byte untouched (R41). -/
theorem highByte_xor_zext16 (c : Word) (b : Byte) : highByte (c ^^^ zext16 b) = highByte c := by
  rw [highByte_xor, highByte_zext16, BitVec.xor_zero]

/-- Bit `b[k]` meets `c[k]` (R28). -/
theorem getLsbD_tableIndex (c : Word) (b : Byte) {k : Nat} (hk : k < 8) :
    (tableIndex c b).getLsbD k = (c.getLsbD k ^^ b.getLsbD k) := by
  rw [tableIndex, BitVec.getLsbD_xor]
  simp [lowByte, hk]

/-- Where `en` is 1 the command is UPD or INITUPD of the `data` field as it stands (R41). -/
theorem decode_of_wordEn {w : CmdWord} (he : wordEn w = true) :
    decode w = .upd (wordData w) ∨ decode w = .initupd (wordData w) := by
  cases hi : wordInit w with
  | false => exact .inl ((decode_eq_upd_iff w _).2 ⟨hi, he, rfl⟩)
  | true => exact .inr ((decode_eq_initupd_iff w _).2 ⟨hi, he, rfl⟩)

/-- Settles O6: the decoder hands on `W[7:0]`, and zero-extension puts it under `crc[7:0]`. -/
theorem operandMeetsTheLowByteBitForBit : Obligations.OperandMeetsTheLowByteBitForBit :=
  ⟨fun w => ⟨decode_of_wordEn, fun _ hk => getLsbD_wordData w hk⟩, fun c b =>
    ⟨zext16_eq_joinBytes b, lowByte_xor_zext16 c b, highByte_xor_zext16 c b,
      fun _ hk => getLsbD_tableIndex c b hk⟩⟩

end Sys2Proof.Proofs
end

section
/-! The outputs as a function of the register alone (R39). -/

namespace Sys2Proof.Proofs

open Sys2Proof.Machine

/-- Equal registers show equal outputs, whatever stands on the inputs (R39). -/
theorem observe_congr {s s' : State} (h : s.crc = s'.crc) : observe s = observe s' := by
  simp only [observe, crcOut, crcWire, zeroFlag, h]

/-- Settles O24: each output is read off `crc`. -/
theorem outputsShowTheRegister : Obligations.OutputsShowTheRegister :=
  ⟨fun s => ⟨crcOut_eq_crc s, highByte_crcWire s, lowByte_crcWire s, zeroFlag_eq_true_iff s, rfl⟩,
    fun _ _ => observe_congr⟩

end Sys2Proof.Proofs
end

section
/-! One step of the machine is the one expression of `crc` and the input (R49), and a run over placed inputs
applies it to each of them in order (R104). -/

namespace Sys2Proof.Proofs

open Sys2Proof.Machine Sys2Proof.Laws

/-! ### The effect of each command (R50 to R53) -/

theorem exec_hold (s : State) : exec .hold s = .next s := rfl

theorem exec_init (s : State) : exec .init s = .next (s.writeCrc Config.seed) := rfl

theorem exec_upd (b : Byte) (s : State) : exec (.upd b) s = .next (s.writeCrc (crcUpdate s.crc b)) := rfl

theorem exec_initupd (b : Byte) (s : State) :
    exec (.initupd b) s = .next (s.writeCrc (crcUpdate Config.seed b)) := rfl

@[simp] theorem writeCrc_self (s : State) : s.writeCrc s.crc = s := rfl

/-! ### The step and the run -/

/-- A decoded command, run with `rst` at 0, writes what the one expression says and nothing else (R49). -/
theorem exec_decode (w : CmdWord) (s : State) :
    exec (decode w) s = .next (s.writeCrc (nextCrc s.crc { rst := false, word := w })) := by
  cases hi : wordInit w <;> cases he : wordEn w
  · rw [(decode_eq_hold_iff w).2 ⟨hi, he⟩, exec_hold]
    simp [nextCrc, hi, he]
  · rw [(decode_eq_upd_iff w _).2 ⟨hi, he, rfl⟩, exec_upd]
    simp [nextCrc, hi, he]
  · rw [(decode_eq_init_iff w).2 ⟨hi, he⟩, exec_init]
    simp [nextCrc, hi, he]
  · rw [(decode_eq_initupd_iff w _).2 ⟨hi, he, rfl⟩, exec_initupd]
    simp [nextCrc, hi, he]

/-- Where `rst` is 1 the one expression is the seed, whatever the word (R44). -/
theorem nextCrc_of_rst (c : Word) {x : StepInput} (h : x.rst = true) : nextCrc c x = Config.seed := by
  simp [nextCrc, h]

/-- Every step takes its input and writes the register as the one expression says (R49). -/
theorem step_eq_next (s : State) :
    step s = .next (s.takeInput.writeCrc (nextCrc s.crc s.presented)) := by
  unfold step
  split
  next hr => rw [nextCrc_of_rst _ hr, State.resetStep]
  next hr =>
    have hx : s.presented = { rst := false, word := s.presented.word } := by
      rw [← Bool.eq_false_iff.2 hr]
    rw [exec_decode, takeInput_crc, ← hx]

/-- A step on a placed input. -/
theorem step_of_cons (s : State) (x : StepInput) (rest : List StepInput) :
    step { s with inputs := x :: rest } = .next { s with crc := nextCrc s.crc x, inputs := rest } :=
  step_eq_next _

/-- A run over placed inputs applies them in order to the register and takes exactly them (R104). -/
theorem runSteps_placed (s : State) (xs rest : List StepInput) :
    runSteps xs.length { s with inputs := xs ++ rest } =
      .next { s with crc := runCrc s.crc xs, inputs := rest } := by
  induction xs generalizing s with
  | nil => rfl
  | cons x xs ih =>
    rw [List.cons_append, List.length_cons, runSteps_succ_of_next (step_of_cons s x (xs ++ rest))]
    exact ih { s with crc := nextCrc s.crc x }

/-! ### The one expression on the words an assembler emits (R50 to R53) -/

@[simp] theorem nextCrc_hold (c : Word) : nextCrc c (commandInput .hold) = c := by
  simp [nextCrc, commandInput, encode_hold]

@[simp] theorem nextCrc_init (c : Word) : nextCrc c (commandInput .init) = Config.seed := by
  simp [nextCrc, commandInput, encode_init]

@[simp] theorem nextCrc_upd (c : Word) (b : Byte) : nextCrc c (commandInput (.upd b)) = crcUpdate c b := by
  simp [nextCrc, commandInput, encode_upd]

@[simp] theorem nextCrc_initupd (c : Word) (b : Byte) :
    nextCrc c (commandInput (.initupd b)) = crcUpdate Config.seed b := by
  simp [nextCrc, commandInput, encode_initupd]

end Sys2Proof.Proofs
end

section
/-! The residue (R74): two trailing bytes bring the register to 0x0000 exactly where they are the bytes of the
CRC before them. -/

namespace Sys2Proof.Proofs

open Sys2Proof.Machine Sys2Proof.Laws

/-- Among the 256 reductions only that of index 0 has an empty high byte. -/
theorem eq_zero_of_highByte_step8 : ∀ i : Byte, highByte (step8 (zext16 i)) = 0x00#8 → i = 0x00#8 := by
  decide

@[simp] theorem tableRead_zero : tableRead 0x00#8 = 0x0000#16 := by
  decide

theorem highByte_tableRead_eq_zero_iff (i : Byte) : highByte (tableRead i) = 0x00#8 ↔ i = 0x00#8 := by
  constructor
  · rw [tableRead_eq_step8]
    exact eq_zero_of_highByte_step8 i
  · rintro rfl
    rw [tableRead_zero]
    rfl

theorem word_eq_zero_iff (v : Word) : v = 0x0000#16 ↔ highByte v = 0x00#8 ∧ lowByte v = 0x00#8 := by
  constructor
  · rintro rfl
    exact ⟨rfl, rfl⟩
  · rintro ⟨hh, hl⟩
    exact word_ext hh hl

/-- The new high byte comes from the table entry alone. -/
@[simp] theorem highByte_crcUpdate (c : Word) (b : Byte) :
    highByte (crcUpdate c b) = highByte (tableRead (tableIndex c b)) := by
  simp [crcUpdate]

theorem tableIndex_eq_zero_iff (c : Word) (b : Byte) : tableIndex c b = 0x00#8 ↔ lowByte c = b :=
  BitVec.xor_eq_zero_iff

/-- A byte empties the new high byte exactly where it is the old low byte. -/
theorem highByte_crcUpdate_eq_zero_iff (c : Word) (b : Byte) :
    highByte (crcUpdate c b) = 0x00#8 ↔ lowByte c = b := by
  rw [highByte_crcUpdate, highByte_tableRead_eq_zero_iff, tableIndex_eq_zero_iff]

/-- The byte that equals the low byte moves the high byte down. -/
theorem crcUpdate_lowByte (c : Word) : crcUpdate c (lowByte c) = c >>> 8 := by
  rw [crcUpdate, (tableIndex_eq_zero_iff c _).2 rfl, tableRead_zero, BitVec.xor_zero]

/-- The update gives 0x0000 exactly from a register that holds the byte and nothing above it (R52). -/
theorem crcUpdate_eq_zero_iff (c : Word) (b : Byte) :
    crcUpdate c b = 0x0000#16 ↔ highByte c = 0x00#8 ∧ lowByte c = b := by
  rw [word_eq_zero_iff, highByte_crcUpdate_eq_zero_iff, and_comm]
  apply and_congr_left
  rintro rfl
  rw [crcUpdate_lowByte, lowByte_shiftRight_eight]

/-- Two updates give 0x0000 exactly for the low and then the high byte of the register. -/
theorem crcUpdate_crcUpdate_eq_zero_iff (c : Word) (lo hi : Byte) :
    crcUpdate (crcUpdate c lo) hi = 0x0000#16 ↔ lo = lowByte c ∧ hi = highByte c := by
  rw [crcUpdate_eq_zero_iff, highByte_crcUpdate_eq_zero_iff, eq_comm (a := lo), eq_comm (a := hi)]
  apply and_congr_right
  rintro rfl
  rw [crcUpdate_lowByte, lowByte_shiftRight_eight]

/-- The residue theorem in both directions (R74). -/
theorem crc16_append_pair_eq_zero_iff (data : List Byte) (lo hi : Byte) :
    crc16 (data ++ [lo, hi]) = 0x0000#16 ↔ lo = lowByte (crc16 data) ∧ hi = highByte (crc16 data) := by
  have h : crc16 (data ++ [lo, hi]) = crcUpdate (crcUpdate (crc16 data) lo) hi := by
    simp [crc16, crc16From]
  rw [h, crcUpdate_crcUpdate_eq_zero_iff]

end Sys2Proof.Proofs
end

section
/-! The pseudo-instructions (R47) on the machine. -/

namespace Sys2Proof.Proofs

open Sys2Proof.Machine Sys2Proof.Laws

/-- UPDs of the bytes of a sequence are the fold of the update over it (R66, R67). -/
theorem runCrc_upds (c : Word) (bs : List Byte) :
    runCrc c ((bs.map Instr.upd).map commandInput) = crc16From c bs := by
  induction bs generalizing c with
  | nil => rfl
  | cons b bs ih =>
    rw [List.map_cons, List.map_cons, runCrc_cons, nextCrc_upd, ih, crc16From_cons]

theorem runCrc_msg (c : Word) (w : CmdWord) (bs : List Byte) :
    runCrc c (itemInputs w (.msg bs)) = crc16 bs := by
  rw [itemInputs, expandMsg, List.map_cons, runCrc_cons, nextCrc_init, runCrc_upds, crc16]

theorem runCrc_msgf (c : Word) (w : CmdWord) (b : Byte) (bs : List Byte) :
    runCrc c (itemInputs w (.msgf b bs)) = crc16 (b :: bs) := by
  rw [itemInputs, expandMsgf, List.map_cons, runCrc_cons, nextCrc_initupd, runCrc_upds, crc16, crc16From_cons]

theorem length_itemInputs_msg (w : CmdWord) (bs : List Byte) :
    (itemInputs w (.msg bs)).length = bs.length + 1 := by
  simp [itemInputs, expandMsg]

theorem length_itemInputs_msgf (w : CmdWord) (b : Byte) (bs : List Byte) :
    (itemInputs w (.msgf b bs)).length = bs.length + 1 := by
  simp [itemInputs, expandMsgf]

/-- `MSG` leaves the CRC-16 of its bytes, one step for the seed and one for each byte. -/
theorem runSteps_msg (s : State) (w : CmdWord) (rest : List StepInput) (bs : List Byte) :
    runSteps (bs.length + 1) { s with inputs := itemInputs w (.msg bs) ++ rest } =
      .next { s with crc := crc16 bs, inputs := rest } := by
  rw [← length_itemInputs_msg w bs, runSteps_placed, runCrc_msg]

/-- `MSGF` leaves the CRC-16 of its bytes in one step for each. -/
theorem runSteps_msgf (s : State) (w : CmdWord) (rest : List StepInput) (b : Byte) (bs : List Byte) :
    runSteps (bs.length + 1) { s with inputs := itemInputs w (.msgf b bs) ++ rest } =
      .next { s with crc := crc16 (b :: bs), inputs := rest } := by
  rw [← length_itemInputs_msgf w b bs, runSteps_placed, runCrc_msgf]

/-- `NOP` is one step that leaves the register. -/
theorem runSteps_nop (s : State) (w : CmdWord) (rest : List StepInput) :
    runSteps 1 { s with inputs := itemInputs w .nop ++ rest } = .next { s with inputs := rest } := by
  have h := runSteps_placed s (itemInputs w .nop) rest
  rwa [itemInputs, expandNop, List.map_singleton, runCrc_cons, nextCrc_hold] at h

/-- `CHK` places the inputs of the `MSG` of the whole frame. -/
theorem itemInputs_chk (w : CmdWord) (data : List Byte) (lo hi : Byte) :
    itemInputs w (.chk data lo hi) = itemInputs w (.msg (data ++ [lo, hi])) := rfl

/-- Settles O42: each expansion is a run over placed inputs; `CHK` is the `MSG` of the whole frame, which the
residue theorem judges. -/
theorem pseudoInstructionsDoWhatTheyName : Obligations.PseudoInstructionsDoWhatTheyName := by
  refine ⟨fun _ => rfl, fun _ _ => rfl, rfl, fun _ _ _ => rfl, fun s w rest =>
    ⟨runSteps_msg s w rest, runSteps_msgf s w rest, runSteps_nop s w rest, fun data lo hi => ?chk⟩⟩
  case chk =>
    refine ⟨{ s with crc := crc16 (data ++ [lo, hi]), inputs := rest }, ?run, ?verdict⟩
    case run =>
      have h := runSteps_msg s w rest (data ++ [lo, hi])
      rwa [List.length_append] at h
    case verdict => rw [zeroFlag_eq_true_iff, crc16_append_pair_eq_zero_iff]

end Sys2Proof.Proofs
end

section
/-! The step by cases on `rst` and the decoded command (R49), and the commands HOLD and INIT (R50, R51). -/

namespace Sys2Proof.Proofs

open Sys2Proof.Machine Sys2Proof.Laws

/-! ### The one expression on any word that decodes to a command, canonical or not (R42, R49) -/

theorem nextCrc_of_decode_hold (c : Word) {x : StepInput} (hr : x.rst = false) (h : decode x.word = .hold) :
    nextCrc c x = c := by
  obtain ⟨hi, he⟩ := (decode_eq_hold_iff _).1 h
  simp [nextCrc, hr, hi, he]

theorem nextCrc_of_decode_init (c : Word) {x : StepInput} (h : decode x.word = .init) :
    nextCrc c x = Config.seed := by
  obtain ⟨hi, he⟩ := (decode_eq_init_iff _).1 h
  simp [nextCrc, hi, he]

theorem nextCrc_of_decode_upd (c : Word) {x : StepInput} {b : Byte} (hr : x.rst = false)
    (h : decode x.word = .upd b) : nextCrc c x = crcUpdate c b := by
  obtain ⟨hi, he, rfl⟩ := (decode_eq_upd_iff _ _).1 h
  simp [nextCrc, hr, hi, he]

theorem nextCrc_of_decode_initupd (c : Word) {x : StepInput} {b : Byte} (hr : x.rst = false)
    (h : decode x.word = .initupd b) : nextCrc c x = crcUpdate Config.seed b := by
  obtain ⟨hi, he, rfl⟩ := (decode_eq_initupd_iff _ _).1 h
  simp [nextCrc, hr, hi, he]

/-- Settles O9: the next register is the one expression, whose value for each command is known. -/
theorem stepIsTheTotalStepFunction : Obligations.StepIsTheTotalStepFunction := by
  refine fun s => ⟨nextCrc s.crc s.presented, step_eq_next s, ?byCommand, rfl⟩
  case byCommand =>
    cases hr : s.presented.rst with
    | true => exact nextCrc_of_rst s.crc hr
    | false =>
      cases h : decode s.presented.word with
      | hold => exact nextCrc_of_decode_hold s.crc hr h
      | init => exact nextCrc_of_decode_init s.crc h
      | upd b => exact nextCrc_of_decode_upd s.crc hr h
      | initupd b => exact nextCrc_of_decode_initupd s.crc hr h

/-! ### HOLD (R50) -/

theorem runCrc_of_decode_hold (c : Word) {xs : List StepInput}
    (h : ∀ x ∈ xs, x.rst = false ∧ decode x.word = .hold) : runCrc c xs = c := by
  induction xs with
  | nil => rfl
  | cons x xs ih =>
    obtain ⟨⟨hr, hx⟩, hxs⟩ := List.forall_mem_cons.1 h
    rw [runCrc_cons, nextCrc_of_decode_hold c hr hx, ih hxs]

/-- The run over the inputs that stand first on a state's ports (R104). -/
theorem runSteps_of_inputs_eq {s : State} {xs rest : List StepInput} (h : s.inputs = xs ++ rest) :
    runSteps xs.length s = .next { s with crc := runCrc s.crc xs, inputs := rest } := by
  have hs := runSteps_placed s xs rest
  rwa [← h] at hs

/-- Settles O18: HOLDs run the register through the identity, by induction on their list. -/
theorem holdKeepsTheRegister : Obligations.HoldKeepsTheRegister := by
  refine ⟨decode_commandWord_hold, rfl, exec_hold, fun s xs rest hxs hs => ?_⟩
  rw [runSteps_of_inputs_eq hs, runCrc_of_decode_hold s.crc hxs]

/-! ### INIT (R51) -/

theorem exec_init_eq_resetStep (s : State) : exec .init s = .next s.resetStep := exec_init s

@[simp] theorem resetStep_resetStep (s : State) : s.resetStep.resetStep = s.resetStep :=
  writeCrc_writeCrc s Config.seed Config.seed

/-- The seed on the outputs (R19, R93). -/
theorem observe_resetStep (s : State) :
    observe s.resetStep = { crcOut := 0xFFFF#16, crcWire := 0xFFFF#16, zero := false } :=
  (observe_congr (writeCrc_crc s Config.seed)).trans observe_reset

/-- Settles O19: INIT is the Reset step's effect, which is idempotent. -/
theorem initSeedsTheRegister : Obligations.InitSeedsTheRegister := by
  refine ⟨decode_commandWord_init, rfl, fun s =>
    ⟨s.resetStep, exec_init_eq_resetStep s, rfl, rfl, observe_resetStep s, ?idempotent⟩⟩
  case idempotent => rw [exec_init_eq_resetStep, resetStep_resetStep]

end Sys2Proof.Proofs
end

section
/-! The bitwise reference update (R65): it equals the table form, so the update is linear over XOR and loses
neither the register nor the byte. -/

namespace Sys2Proof.Proofs

open Sys2Proof.Machine Sys2Proof.Laws

/-! ### The bitwise form is the table form (R65) -/

/-- With nothing in the low byte the eight reductions only shift: no bit of the high byte has come out yet. -/
theorem step8_joinBytes_zero : ∀ h : Byte, step8 (joinBytes h 0x00#8) = zext16 h := by
  decide

theorem joinBytes_eq_xor_zext16 (h l : Byte) : joinBytes h l = joinBytes h 0x00#8 ^^^ zext16 l := by
  apply word_ext <;> simp

theorem shiftRight_eight_eq_zext16 (v : Word) : v >>> 8 = zext16 (highByte v) := by
  apply word_ext <;> simp

theorem xor_zext16_eq_joinBytes (c : Word) (b : Byte) :
    c ^^^ zext16 b = joinBytes (highByte c) (tableIndex c b) := by
  apply word_ext
  · rw [highByte_xor_zext16, highByte_joinBytes]
  · rw [lowByte_xor_zext16, lowByte_joinBytes]

/-- Eight reductions move the high byte down and meet the table entry of the low byte. -/
theorem step8_joinBytes (h l : Byte) : step8 (joinBytes h l) = zext16 h ^^^ tableRead l := by
  rw [joinBytes_eq_xor_zext16, step8_xor, step8_joinBytes_zero, ← tableRead_eq_step8]

theorem crcUpdate_eq_step8 (c : Word) (b : Byte) : crcUpdate c b = step8 (c ^^^ zext16 b) := by
  rw [xor_zext16_eq_joinBytes, step8_joinBytes, ← shiftRight_eight_eq_zext16, crcUpdate]

theorem crcBitwiseUpdate_eq_crcUpdate : crcBitwiseUpdate = crcUpdate := by
  funext c b
  rw [crcBitwiseUpdate, crcUpdate_eq_step8]

/-- Settles O30: eight reductions split at the byte boundary into the shift and the table read. -/
theorem bitwiseUpdateEqualsTableUpdate : Obligations.BitwiseUpdateEqualsTableUpdate := fun c b =>
  ⟨rfl, by rw [crcBitwiseUpdate_eq_crcUpdate]⟩

/-! ### What two updates can share -/

theorem zext16_xor (a b : Byte) : zext16 (a ^^^ b) = zext16 a ^^^ zext16 b := by
  apply word_ext <;> simp

/-- The update is linear over XOR in the register and the byte together. -/
theorem crcUpdate_xor (c c' : Word) (b b' : Byte) :
    crcUpdate (c ^^^ c') (b ^^^ b') = crcUpdate c b ^^^ crcUpdate c' b' := by
  simp only [crcUpdate_eq_step8, zext16_xor, ← step8_xor]
  ac_rfl

/-- Two updates agree exactly where their registers differ in the low byte alone, and there as their bytes
do. -/
theorem crcUpdate_eq_crcUpdate_iff (c c' : Word) (b b' : Byte) :
    crcUpdate c b = crcUpdate c' b' ↔ highByte (c ^^^ c') = 0x00#8 ∧ lowByte (c ^^^ c') = b ^^^ b' := by
  rw [← BitVec.xor_eq_zero_iff, ← crcUpdate_xor, crcUpdate_eq_zero_iff]

theorem crcUpdate_left_inj (c c' : Word) (b : Byte) : crcUpdate c b = crcUpdate c' b ↔ c = c' := by
  rw [crcUpdate_eq_crcUpdate_iff, BitVec.xor_self, ← word_eq_zero_iff, BitVec.xor_eq_zero_iff]

theorem crcUpdate_right_inj (c : Word) (b b' : Byte) : crcUpdate c b = crcUpdate c b' ↔ b = b' := by
  rw [crcUpdate_eq_crcUpdate_iff, BitVec.xor_self, ← BitVec.xor_eq_zero_iff (x := b)]
  exact ⟨fun ⟨_, h⟩ => h.symm, fun h => ⟨rfl, h.symm⟩⟩

end Sys2Proof.Proofs
end

section
/-! The CRC of a message: its entry points (R68 to R71), and what a change of one byte does to it (R77). -/

namespace Sys2Proof.Proofs

open Sys2Proof.Machine Sys2Proof.Laws

/-! ### The entry points (R69 to R71) -/

@[simp] theorem crc16_nil : crc16 [] = Config.seed := rfl

theorem crc16Bitwise_eq_crc16 : crc16Bitwise = crc16 := by
  funext bs
  rw [crc16Bitwise, crcBitwiseUpdate_eq_crcUpdate, crc16, crc16From]

@[simp] theorem modbusCrcCheckTableAbs_eq : modbusCrcCheckTableAbs = modbusCrcCheckTable := rfl

@[simp] theorem modbusCrcCalc_eq : modbusCrcCalc = modbusCrcCheckTable := by
  funext m buf length
  rw [modbusCrcCalc, crc16Bitwise_eq_crc16, modbusCrcCheckTable]

/-- Settles O51: the entry points share the bytes they read, and the folds over them are one function. -/
theorem threeEntryPointsAgree : Obligations.ThreeEntryPointsAgree := fun m buf length => by
  rw [modbusCrcCheckTableAbs_eq, modbusCrcCalc_eq]
  exact ⟨rfl, rfl⟩

/-- With length 0 nothing is read, whatever the pointer (R76). -/
@[simp] theorem bufferBytes_zero (m : Memory) (buf : Option Nat) : bufferBytes m buf 0 = .ok [] := by
  cases buf <;> rfl

theorem modbusCrcCheckTable_zero (m : Memory) (buf : Option Nat) :
    modbusCrcCheckTable m buf 0 = .ok Config.seed := by
  rw [modbusCrcCheckTable, bufferBytes_zero, Except.map, crc16_nil]

/-- Settles O45: the fold over no byte is the seed, which is also what INIT loads. -/
theorem emptyMessageYieldsTheSeed : Obligations.EmptyMessageYieldsTheSeed := by
  refine ⟨crc16_nil, fun m buf => ?entryPoints, fun s => ⟨_, exec_init s, rfl⟩⟩
  case entryPoints =>
    rw [modbusCrcCheckTableAbs_eq, modbusCrcCalc_eq]
    have h := modbusCrcCheckTable_zero m buf
    exact ⟨h, h, h⟩

/-! ### A change of one byte (R77) -/

/-- The fold goes on over later bytes from where the earlier ones left it. -/
theorem crc16From_append (c : Word) (as bs : List Byte) :
    crc16From c (as ++ bs) = crc16From (crc16From c as) bs :=
  List.foldl_append

theorem crc16_append_cons (a c : List Byte) (b : Byte) :
    crc16 (a ++ b :: c) = crc16From (crcUpdate (crc16 a) b) c := by
  rw [crc16, crc16From_append, crc16From_cons, crc16]

/-- The same bytes never bring two registers together. -/
theorem crc16From_inj (c c' : Word) (bs : List Byte) : crc16From c bs = crc16From c' bs ↔ c = c' := by
  induction bs generalizing c c' with
  | nil => rfl
  | cons b bs ih => rw [crc16From_cons, crc16From_cons, ih, crcUpdate_left_inj]

/-- Between the same bytes, only the same byte gives the same CRC. -/
theorem crc16_append_cons_inj (a c : List Byte) (b b' : Byte) :
    crc16 (a ++ b :: c) = crc16 (a ++ b' :: c) ↔ b = b' := by
  rw [crc16_append_cons, crc16_append_cons, crc16From_inj, crcUpdate_right_inj]

theorem xor_bit_ne_self (b : Byte) {k : Nat} (hk : k < 8) : b ^^^ (0x01#8 <<< k) ≠ b := by
  intro h
  have hbit := congrArg (BitVec.getLsbD · k) h
  simp [hk] at hbit

/-- Settles O50: the changed byte splits the register, and no byte behind it closes the gap. -/
theorem singleByteChangeAlwaysChangesTheCrc : Obligations.SingleByteChangeAlwaysChangesTheCrc := by
  constructor
  · intro a c b b' hb
    rwa [Ne, crc16_append_cons_inj]
  · intro a c b k hk
    rw [Ne, crc16_append_cons_inj]
    exact (xor_bit_ne_self b hk).symm

end Sys2Proof.Proofs
end

section
/-! The two forms of VERIFY (R73, R74) on a frame cut into its data and its two trailing bytes, and on a frame
with no room for a CRC field. -/

namespace Sys2Proof.Proofs

open Sys2Proof.Machine Sys2Proof.Laws

/-- `{hi, lo}` is the one 16-bit value with these two bytes (R9). -/
theorem eq_joinBytes_iff (v : Word) (hi lo : Byte) :
    v = joinBytes hi lo ↔ lowByte v = lo ∧ highByte v = hi := by
  constructor
  · rintro rfl
    exact ⟨lowByte_joinBytes hi lo, highByte_joinBytes hi lo⟩
  · rintro ⟨rfl, rfl⟩
    exact (joinBytes_bytes v).symm

theorem verifyByComparison_append_pair (data : List Byte) (lo hi : Byte) :
    verifyByComparison (data ++ [lo, hi]) = true ↔ crc16 data = joinBytes hi lo := by
  simp [verifyByComparison]

theorem verifyByResidue_append_pair (data : List Byte) (lo hi : Byte) :
    verifyByResidue (data ++ [lo, hi]) = true ↔ crc16 (data ++ [lo, hi]) = 0x0000#16 := by
  simp [verifyByResidue]

theorem verifyByComparison_of_length_lt_two {frame : List Byte} (h : frame.length < 2) :
    verifyByComparison frame = false := by
  match frame, h with
  | [], _ => rfl
  | [_], _ => rfl

/-- Settles O48: the trailing pair is compared as one value, which its two bytes determine. -/
theorem comparisonAcceptsExactlyTheRightTrailer : Obligations.ComparisonAcceptsExactlyTheRightTrailer := by
  refine ⟨fun data lo hi => ?bytes, verifyByComparison_append_pair,
    fun _ => verifyByComparison_of_length_lt_two⟩
  case bytes => rw [verifyByComparison_append_pair, eq_joinBytes_iff]

/-- The spec's example of the wrong order: high byte first leaves a residue (R74). -/
theorem residue_of_swapped_trailer :
    crc16 [0x01#8, 0x03#8, 0x00#8, 0x00#8, 0x00#8, 0x0A#8, 0xCD#8, 0xC5#8] = 0x0606#16 := rfl

/-- Settles O47: the two updates of the trailer leave 0x0000 exactly for the low and then the high byte. -/
theorem residueIsZeroExactlyForTheRightTrailer : Obligations.ResidueIsZeroExactlyForTheRightTrailer :=
  ⟨fun data => (crc16_append_pair_eq_zero_iff data _ _).2 ⟨rfl, rfl⟩, crc16_append_pair_eq_zero_iff,
    verifyByResidue_append_pair, residue_of_swapped_trailer⟩

end Sys2Proof.Proofs
end

section
/-! Priority within one step (R84): `rst` over the command, and INITUPD where `init` and `en` meet. -/

namespace Sys2Proof.Proofs

open Sys2Proof.Machine Sys2Proof.Laws

/-- A step with `rst` at 1 on a placed input leaves the seed, whatever the word (R44, R84). -/
theorem step_of_cons_rst (s : State) (w : CmdWord) (rest : List StepInput) :
    step { s with inputs := { rst := true, word := w } :: rest } =
      .next { s with crc := Config.seed, inputs := rest } := by
  rw [step_of_cons, nextCrc_of_rst s.crc rfl]

/-- A step with `rst` at 0 on a placed word runs the command the word decodes to (R49). -/
theorem step_of_cons_command (s : State) (w : CmdWord) (rest : List StepInput) :
    step { s with inputs := { rst := false, word := w } :: rest } =
      exec (decode w) { s with inputs := rest } := by
  rw [step_of_cons, exec_decode]
  rfl

/-- Settles O13: with `rst` at 1 the word is not read; with `rst` at 0 the word with `init` and `en`
decodes to INITUPD, whose update starts at the seed. -/
theorem resetOverridesAndInitWithEnSeedsFirst : Obligations.ResetOverridesAndInitWithEnSeedsFirst := by
  intro s rest d
  have hstep : step { s with inputs := { rst := false, word := commandWord true true d } :: rest } =
      exec (.initupd d) { s with inputs := rest } := by
    rw [step_of_cons_command, decode_commandWord_initupd]
  exact ⟨fun init en => step_of_cons_rst s (commandWord init en d) rest, hstep,
    hstep.trans (exec_initupd d _)⟩

end Sys2Proof.Proofs
end

section
/-! The Reset step (R93), and Reset held for several steps (R94). -/

namespace Sys2Proof.Proofs

open Sys2Proof.Machine Sys2Proof.Laws

/-- Where `rst` is 1 the step is the Reset step, whatever the word (R44, R93). -/
theorem step_of_rst {s : State} (h : s.presented.rst = true) : step s = .next s.takeInput.resetStep := by
  rw [step_eq_next, nextCrc_of_rst s.crc h, State.resetStep]

/-- Settles O11: the step is the Reset step, whose effect and outputs are those of INIT. -/
theorem resetStepLoadsTheSeedWhateverTheWord : Obligations.ResetStepLoadsTheSeedWhateverTheWord := by
  intro s h
  have hstep := step_of_rst h
  exact ⟨hstep, hstep.trans (exec_init_eq_resetStep s.takeInput).symm, observe_resetStep s.takeInput⟩

/-- One more input at the end is one application of the one expression more. -/
theorem runCrc_concat (c : Word) (xs : List StepInput) (x : StepInput) :
    runCrc c (xs ++ [x]) = nextCrc (runCrc c xs) x := by
  rw [runCrc, List.foldl_concat, runCrc]

/-- Held Reset leaves the seed: the last of its steps does, whatever the ones before it left. -/
theorem runCrc_of_rst (c : Word) {xs : List StepInput} (hne : xs ≠ []) (h : ∀ x ∈ xs, x.rst = true) :
    runCrc c xs = Config.seed := by
  have hlast := nextCrc_of_rst (runCrc c xs.dropLast) (h _ (List.getLast_mem hne))
  rwa [← runCrc_concat, List.dropLast_append_getLast hne] at hlast

/-- A run over placed inputs and a command behind them is that command at the state the inputs leave
(R49, R104). -/
theorem runSteps_placed_command {s : State} {xs rest : List StepInput} {y : StepInput} (hy : y.rst = false)
    (h : s.inputs = xs ++ y :: rest) :
    runSteps (xs.length + 1) s = exec (decode y.word) { s with crc := runCrc s.crc xs, inputs := rest } := by
  have hrun := runSteps_of_inputs_eq (s := s) (xs := xs ++ [y]) (rest := rest) (by rw [h, List.append_cons])
  have hy' : y = { rst := false, word := y.word } := by rw [← hy]
  rw [List.length_append, List.length_singleton, runCrc_concat, hy'] at hrun
  rw [hrun, exec_decode]
  rfl

/-- Settles O12: the last Reset step alone decides the register, and the command after it starts there. -/
theorem heldResetLeavesTheSeedAndRecoversAtOnce : Obligations.HeldResetLeavesTheSeedAndRecoversAtOnce := by
  intro s xs rest hne hrst hs
  have hseed := runCrc_of_rst s.crc hne hrst
  constructor
  · rw [runSteps_of_inputs_eq hs, hseed]
    rfl
  · rintro y rest' rfl hy
    rw [runSteps_placed_command hy hs, hseed]
    rfl

end Sys2Proof.Proofs
end

section
/-! Bytes fed without seeding (R98): the register goes on from its old value. -/

namespace Sys2Proof.Proofs

open Sys2Proof.Machine Sys2Proof.Laws Sys2Proof.Safety

@[simp] theorem bytesConsumed_cons (x : StepInput) (xs : List StepInput) :
    bytesConsumed (x :: xs) = (byteConsumed x).toList ++ bytesConsumed xs := by
  simp only [bytesConsumed, List.filterMap_eq_flatMap_toList, List.flatMap_cons]

/-- A step that does not seed feeds the old register the byte it consumes, if it consumes one (R49, R100). -/
theorem nextCrc_of_not_seeding (c : Word) {x : StepInput} (h : seeding x = false) :
    nextCrc c x = crc16From c (byteConsumed x).toList := by
  obtain ⟨hr, hi⟩ := Bool.or_eq_false_iff.1 h
  cases he : wordEn x.word <;> simp [nextCrc, byteConsumed, hr, hi, he]

/-- Steps that do not seed are the fold of the update over the bytes they consume (R66, R98). -/
theorem runCrc_of_not_seeding (c : Word) {xs : List StepInput} (h : ∀ x ∈ xs, seeding x = false) :
    runCrc c xs = crc16From c (bytesConsumed xs) := by
  induction xs generalizing c with
  | nil => rfl
  | cons x xs ih =>
    obtain ⟨hx, hxs⟩ := List.forall_mem_cons.1 h
    rw [runCrc_cons, nextCrc_of_not_seeding c hx, ih _ hxs, bytesConsumed_cons, crc16From_append]

/-- A zero byte leaves the zero register as it is (R52). -/
@[simp] theorem crcUpdate_zero_zero : crcUpdate 0x0000#16 0x00#8 = 0x0000#16 :=
  (crcUpdate_eq_zero_iff 0x0000#16 0x00#8).2 ⟨rfl, rfl⟩

/-- The zero register is a fixed point of zero bytes (R98). -/
theorem crc16From_zero_replicate_zero (n : Nat) :
    crc16From 0x0000#16 (List.replicate n 0x00#8) = 0x0000#16 := by
  induction n with
  | zero => rfl
  | succ n ih => rwa [List.replicate_succ, crc16From_cons, crcUpdate_zero_zero]

/-- Settles O38: without a seeding step the run is the fold over its bytes from the old register. -/
theorem unseededBytesContinueTheOldMessage : Obligations.UnseededBytesContinueTheOldMessage := by
  refine ⟨fun s xs rest hxs hs => ?continuation, crc16From_zero_replicate_zero⟩
  case continuation => rw [runSteps_of_inputs_eq hs, runCrc_of_not_seeding s.crc hxs]

end Sys2Proof.Proofs
end

section
/-! The run and its observations (R104). -/

namespace Sys2Proof.Proofs

open Sys2Proof.Machine Sys2Proof.Laws

theorem observations_succ_of_next {s t : State} (h : step s = .next t) (k : Nat) :
    observations s (k + 1) = observe t :: observations t k := by
  rw [observations, h]

/-- No step stops the run, so each of them is observed. -/
@[simp] theorem length_observations (s : State) (k : Nat) : (observations s k).length = k := by
  induction k generalizing s with
  | zero => rfl
  | succ k ih => rw [observations_succ_of_next (step_eq_next s), List.length_cons, ih]

/-- What is observed after `k + 1` steps is the state that `k + 1` steps leave. -/
theorem getElem?_observations {s t : State} {k n : Nat} (hk : k < n) (h : runSteps (k + 1) s = .next t) :
    (observations s n)[k]? = some (observe t) := by
  induction n generalizing s k with
  | zero => exact absurd hk (Nat.not_lt_zero k)
  | succ n ih =>
    have hstep := step_eq_next s
    rw [runSteps_succ_of_next hstep] at h
    rw [observations_succ_of_next hstep]
    cases k with
    | zero =>
      obtain rfl := Host.Outcome.next.inj h
      rfl
    | succ k =>
      rw [List.getElem?_cons_succ]
      exact ih (Nat.lt_of_succ_lt_succ hk) h

/-- The run over the first `n` of the inputs that stand on a state's ports (R104). -/
theorem runSteps_take_of_inputs_eq {s : State} {xs rest : List StepInput} {n : Nat} (hn : n ≤ xs.length)
    (h : s.inputs = xs ++ rest) :
    runSteps n s = .next { s with crc := runCrc s.crc (xs.take n), inputs := xs.drop n ++ rest } := by
  have hs : s.inputs = xs.take n ++ (xs.drop n ++ rest) := by
    rw [← List.append_assoc, List.take_append_drop, h]
  have hrun := runSteps_of_inputs_eq hs
  rwa [List.length_take_of_le hn] at hrun

/-- Settles O39: the run over the whole sequence gives the final register, and the run over its first
`k + 1` inputs the `k`-th observation. -/
theorem runAppliesItsInputsInOrder : Obligations.RunAppliesItsInputsInOrder := by
  refine fun s xs rest hs => ⟨runSteps_of_inputs_eq hs, length_observations s xs.length, fun k hk => ?observed⟩
  case observed =>
    rw [getElem?_observations hk (runSteps_take_of_inputs_eq hk hs)]
    exact congrArg some (observe_congr rfl)

end Sys2Proof.Proofs
end

section
/-! The canonical word of each command (R40, R45): what decodes to what, and what the machine runs when it
is presented. -/

namespace Sys2Proof.Proofs

open Sys2Proof.Machine Sys2Proof.Laws

/-! ### The three ports (R38) -/

/-- A word is the word of its three fields. -/
theorem commandWord_fields (w : CmdWord) : commandWord (wordInit w) (wordEn w) (wordData w) = w :=
  cmdWord_ext (wordInit_commandWord _ _ _) (wordEn_commandWord _ _ _) (wordData_commandWord _ _ _)

theorem commandWord_eq_iff (init en : Bool) (d : Byte) (w : CmdWord) :
    commandWord init en d = w ↔ init = wordInit w ∧ en = wordEn w ∧ d = wordData w := by
  constructor
  · rintro rfl
    simp
  · rintro ⟨rfl, rfl, rfl⟩
    exact commandWord_fields w

/-- Settles O5: each field reads back, and the three together are the word. -/
theorem commandWordIsTheThreePorts : Obligations.CommandWordIsTheThreePorts :=
  ⟨fun init en d => ⟨wordInit_commandWord init en d, wordEn_commandWord init en d,
    wordData_commandWord init en d⟩, commandWord_fields⟩

/-! ### Decoding after encoding, and encoding after decoding (R45) -/

@[simp] theorem decode_encode (i : Instr) : decode (encode i) = i := by
  cases i with
  | hold => rw [encode_hold, decode_commandWord_hold]
  | init => rw [encode_init, decode_commandWord_init]
  | upd b => rw [encode_upd, decode_commandWord_upd]
  | initupd b => rw [encode_initupd, decode_commandWord_initupd]

/-- The encoder restores the two opcode bits, and the `data` field where it is an operand. -/
theorem encode_decode (w : CmdWord) :
    encode (decode w) = commandWord (wordInit w) (wordEn w) (if wordEn w then wordData w else 0x00#8) := by
  cases hi : wordInit w <;> cases he : wordEn w
  · rw [(decode_eq_hold_iff w).2 ⟨hi, he⟩, encode_hold, if_neg Bool.false_ne_true]
  · rw [(decode_eq_upd_iff w _).2 ⟨hi, he, rfl⟩, encode_upd, if_pos rfl]
  · rw [(decode_eq_init_iff w).2 ⟨hi, he⟩, encode_init, if_neg Bool.false_ne_true]
  · rw [(decode_eq_initupd_iff w _).2 ⟨hi, he, rfl⟩, encode_initupd, if_pos rfl]

theorem encode_decode_eq_self_iff (w : CmdWord) :
    encode (decode w) = w ↔ wordEn w = true ∨ wordData w = 0x00#8 := by
  rw [encode_decode, commandWord_eq_iff]
  cases wordEn w <;> simp [eq_comm]

theorem isCanonicalWord_iff (w : CmdWord) :
    isCanonicalWord w = true ↔ wordEn w = true ∨ wordData w = 0x00#8 := by
  rw [isCanonicalWord, Bool.or_eq_true, beq_iff_eq, wordEn, wordData]

/-- Settles O2: only the `data` field can be lost, and only where `en` is 0. -/
theorem reencodingRestoresExactlyTheCanonicalWords : Obligations.ReencodingRestoresExactlyTheCanonicalWords :=
  fun w => ⟨encode_decode_eq_self_iff w, isCanonicalWord_iff w⟩

theorem isCanonicalWord_encode (i : Instr) : isCanonicalWord (encode i) = true := by
  rw [isCanonicalWord_iff, ← encode_decode_eq_self_iff, decode_encode]

theorem wf_eq_true (i : Instr) : i.wf = true := by
  cases i <;> rfl

/-- Settles O7: the eight words are closed terms. -/
theorem specSampleWordsDecode : Obligations.SpecSampleWordsDecode := by
  unfold Obligations.SpecSampleWordsDecode
  decide

/-! ### The machine that is presented a word (R49) -/

/-- A number of at most ten bits is taken over as the word it writes (log entry 6). -/
theorem tableWord_of_lt {nbits w : Nat} (hn : 10 ≤ nbits) (hw : w < 1024) :
    tableWord nbits w = BitVec.ofNat 10 w := by
  have h := tableWord_toNat hn (BitVec.ofNat 10 w)
  rwa [BitVec.toNat_ofNat, Nat.mod_eq_of_lt hw] at h

/-- A word presented next is what the next step runs, from the state it was presented at. -/
theorem step_withFetchWord (s : State) (nbits w : Nat) :
    step (s.withFetchWord nbits w) = exec (decode (tableWord nbits w)) s :=
  step_of_cons_command s (tableWord nbits w) s.inputs

/-- Settles O1: encoding loses nothing that decoding reads, and the step runs what was decoded. -/
theorem encodedCommandDecodesAndRunsAsItself : Obligations.EncodedCommandDecodesAndRunsAsItself := by
  refine fun i => ⟨wf_eq_true i, isCanonicalWord_encode i, decode_encode i, ?tableWord, fun s => ?presented⟩
  case tableWord => rw [decodeTableWord_toNat (by decide), decode_encode]
  case presented => rw [step_withFetchWord, tableWord_toNat (by decide), decode_encode]

/-- The step by cases on `rst` (R49). -/
theorem step_eq_ite (s : State) :
    step s = if s.presented.rst then .next s.takeInput.resetStep
      else exec (decode s.presented.word) s.takeInput := rfl

/-- Settles O8: the step read at the two forms of the inputs, and at a word presented for it. -/
theorem stepRunsThePresentedCommand : Obligations.StepRunsThePresentedCommand := by
  refine ⟨fun s x rest h => ?placed, fun s h => ?free, fun s nbits w hn hw => ?presented⟩
  case placed =>
    rw [step_eq_ite, presented_of_cons h, takeInput_of_cons h]
    rfl
  case free =>
    rw [step_eq_ite, presented_of_nil h, takeInput_of_nil h]
    rfl
  case presented => rw [step_withFetchWord, tableWord_of_lt hn hw]

end Sys2Proof.Proofs
end

section
/-! What a step can do: it takes its input, seeds or does not, and feeds the byte the input carries, if it
carries one (R49, R96, R100). -/

namespace Sys2Proof.Proofs

open Sys2Proof.Machine Sys2Proof.Laws Sys2Proof.Safety

/-! ### The next register through seeding and the byte consumed -/

/-- A step that seeds starts a message with the byte it consumes, if it consumes one (R96, R100). -/
theorem nextCrc_of_seeding (c : Word) {x : StepInput} (h : seeding x = true) :
    nextCrc c x = crc16 (byteConsumed x).toList := by
  have hx : (x.rst || wordInit x.word) = true := h
  rw [nextCrc, if_pos hx, byteConsumed]
  split <;> rfl

/-- The whole effect of an input on the register. -/
theorem nextCrc_eq_crc16From (c : Word) (x : StepInput) :
    nextCrc c x = crc16From (if seeding x then Config.seed else c) (byteConsumed x).toList := by
  cases h : seeding x with
  | true => exact nextCrc_of_seeding c h
  | false => exact nextCrc_of_not_seeding c h

/-- A step that answers has taken its input and written the register, and done nothing else. -/
theorem eq_of_step {s t : State} (h : step s = .next t) :
    t = s.takeInput.writeCrc (nextCrc s.crc s.presented) :=
  (Host.Outcome.next.inj ((step_eq_next s).symm.trans h)).symm

theorem crc_of_step {s t : State} (h : step s = .next t) : t.crc = nextCrc s.crc s.presented := by
  rw [eq_of_step h, writeCrc_crc]

/-- Settles O14: the next register is a function of the register and the presented input. -/
theorem nextRegisterDependsOnRegisterAndInputAlone :
    Obligations.NextRegisterDependsOnRegisterAndInputAlone := by
  refine fun s s' hc hx => ⟨_, _, step_eq_next s, step_eq_next s', ?_⟩
  rw [writeCrc_crc, writeCrc_crc, hc, hx]

theorem byteConsumed_eq_none_iff (x : StepInput) :
    byteConsumed x = none ↔ (wordEn x.word && !x.rst) = false := by
  simp [byteConsumed]

/-- Where no byte is consumed, only the ports beside `data` reach the register. -/
theorem nextCrc_congr_of_byteConsumed_eq_none (c : Word) {x y : StepInput} (hx : byteConsumed x = none)
    (hrst : y.rst = x.rst) (hinit : wordInit y.word = wordInit x.word) (hen : wordEn y.word = wordEn x.word) :
    nextCrc c y = nextCrc c x := by
  have hseed : seeding y = seeding x := by rw [seeding, seeding, hrst, hinit]
  have hy : byteConsumed y = none := by
    rw [byteConsumed_eq_none_iff] at hx ⊢
    rwa [hrst, hen]
  rw [nextCrc_eq_crc16From, nextCrc_eq_crc16From, hseed, hx, hy]

/-- Settles O15: a word with another `data` field and the same `init` and `en` leaves the same register. -/
theorem byteNotConsumedHasNoEffect : Obligations.ByteNotConsumedHasNoEffect := by
  intro s x rest d h
  have hnext : nextCrc s.crc { x with word := commandWord (wordInit x.word) (wordEn x.word) d } =
      nextCrc s.crc x :=
    nextCrc_congr_of_byteConsumed_eq_none s.crc h rfl (wordInit_commandWord _ _ d) (wordEn_commandWord _ _ d)
  rw [step_of_cons, step_of_cons, hnext]

/-- Settles O16: without seeding and without a byte the fold is empty. -/
theorem registerChangesOnlyBySeedingOrAByte : Obligations.RegisterChangesOnlyBySeedingOrAByte := by
  intro s t h hne
  by_contra hno
  obtain ⟨hseed, hbyte⟩ := not_or.1 hno
  apply hne
  rw [crc_of_step h, nextCrc_of_not_seeding _ (Bool.eq_false_iff.2 hseed), Option.not_isSome_iff_eq_none.1 hbyte]
  rfl

/-- A write of the register before a step reaches no further than the register the step reads. -/
theorem step_writeCrc (s : State) (c : Word) :
    step (s.writeCrc c) = .next (s.takeInput.writeCrc (nextCrc c s.presented)) := by
  rw [step_eq_next, takeInput_writeCrc, writeCrc_writeCrc, writeCrc_crc, presented_writeCrc]

/-- Settles O26: a step that seeds feeds its byte to the seed. -/
theorem seedingForgetsTheOldRegister : Obligations.SeedingForgetsTheOldRegister := by
  intro s c h
  calc step (s.writeCrc c)
      = .next (s.takeInput.writeCrc (crc16 (byteConsumed s.presented).toList)) := by
        rw [step_writeCrc, nextCrc_of_seeding c h]
    _ = step s := by rw [step_eq_next, nextCrc_of_seeding s.crc h]

/-! ### The inputs (R38) -/

@[simp] theorem takeInput_inputs (s : State) : s.takeInput.inputs = s.inputs.tail := by
  cases h : s.inputs with
  | nil => rw [takeInput_of_nil h, h, List.tail_nil]
  | cons x rest => rw [takeInput_of_cons h, List.tail_cons]

@[simp] theorem takeInput_freeDraws (s : State) :
    s.takeInput.freeDraws = if s.inputs.isEmpty then s.freeDraws + 1 else s.freeDraws := by
  cases h : s.inputs with
  | nil =>
    rw [takeInput_of_nil h]
    rfl
  | cons x rest =>
    rw [takeInput_of_cons h]
    rfl

/-- Settles O17: beside the write of the register the step only takes its input. -/
theorem stepTakesExactlyOneInput : Obligations.StepTakesExactlyOneInput := by
  intro s t h
  rw [eq_of_step h]
  exact ⟨takeInput_inputs s, takeInput_freeDraws s⟩

/-! ### Every command, and a run of any length (R81) -/

/-- Every command answers: it writes the register, as its canonical word would (R49). -/
theorem exec_eq_next (i : Instr) (s : State) :
    exec i s = .next (s.writeCrc (nextCrc s.crc (commandInput i))) := by
  have h := exec_decode (encode i) s
  rwa [decode_encode] at h

/-- Settles O23: a command is a write of the register, and HOLD writes what was there. -/
theorem commandsChangeNothingButTheRegister : Obligations.CommandsChangeNothingButTheRegister := by
  intro i s t h
  obtain rfl := Host.Outcome.next.inj ((exec_eq_next i s).symm.trans h)
  refine ⟨rfl, rfl, ?hold⟩
  case hold =>
    rintro rfl
    rw [nextCrc_hold, writeCrc_crc]

theorem exists_runSteps_eq_next (k : Nat) (s : State) : ∃ t, runSteps k s = .next t := by
  induction k generalizing s with
  | zero => exact ⟨s, rfl⟩
  | succ k ih =>
    rw [runSteps_succ_of_next (step_eq_next s)]
    exact ih _

/-- Settles O10: every command and every step answers, and so by induction does every run. -/
theorem runOfAnyLengthAnswersANextState : Obligations.RunOfAnyLengthAnswersANextState :=
  ⟨fun i s => ⟨_, exec_eq_next i s⟩, exists_runSteps_eq_next⟩

end Sys2Proof.Proofs
end

section
/-! The register as the CRC-16 of the message since the last seeding (R66, R78): every step keeps it, and so
does every seeded message. -/

namespace Sys2Proof.Proofs

open Sys2Proof.Machine Sys2Proof.Laws Sys2Proof.Safety

/-- A message may be fed in pieces (R78). -/
theorem crc16_append (as bs : List Byte) : crc16 (as ++ bs) = crc16From (crc16 as) bs :=
  crc16From_append Config.seed as bs

/-- Settles O46: the fold over a concatenation is two folds. -/
theorem crcOfConcatenationContinues : Obligations.CrcOfConcatenationContinues :=
  crc16_append

/-- Settles O36: the fold over no byte is the seed, which Reset loads. -/
theorem resetRegisterIsCrcOfEmptyMessage : Obligations.ResetRegisterIsCrcOfEmptyMessage :=
  reset_crc.trans crc16_nil.symm

/-- One input keeps the register the CRC of its message. -/
theorem nextCrc_crc16 (m : List Byte) (x : StepInput) : nextCrc (crc16 m) x = crc16 (messageAfter m x) := by
  cases h : seeding x with
  | true => rw [nextCrc_of_seeding _ h, messageAfter, if_pos h]
  | false => rw [nextCrc_of_not_seeding _ h, messageAfter, h, if_neg Bool.false_ne_true, crc16_append]

/-- Settles O35: a step that seeds begins the message anew, and any other continues it. -/
theorem everyStepKeepsRegisterAsCrcOfItsMessage : Obligations.EveryStepKeepsRegisterAsCrcOfItsMessage := by
  intro s t m hm h
  rw [crc_of_step h, hm, nextCrc_crc16]

theorem oneMessage_cons_iff (x : StepInput) (xs : List StepInput) :
    oneMessage (x :: xs) = true ↔ seeding x = true ∧ ∀ y ∈ xs, seeding y = false := by
  simp [oneMessage]

/-- One message leaves the CRC-16 of the bytes it consumes, from any register (R66). -/
theorem runCrc_of_oneMessage (c : Word) {xs : List StepInput} (h : oneMessage xs = true) :
    runCrc c xs = crc16 (bytesConsumed xs) := by
  cases xs with
  | nil => cases h
  | cons x xs =>
    obtain ⟨hx, hxs⟩ := (oneMessage_cons_iff x xs).1 h
    rw [runCrc_cons, nextCrc_of_seeding c hx, runCrc_of_not_seeding _ hxs, bytesConsumed_cons, crc16_append]

theorem runSteps_of_oneMessage {s : State} {xs rest : List StepInput} (hxs : oneMessage xs = true)
    (hs : s.inputs = xs ++ rest) :
    runSteps xs.length s = .next { s with crc := crc16 (bytesConsumed xs), inputs := rest } := by
  rw [runSteps_of_inputs_eq hs, runCrc_of_oneMessage s.crc hxs]

/-- Settles O37: the first input seeds, and the others feed their bytes to it. -/
theorem seededMessageLeavesItsCrc16 : Obligations.SeededMessageLeavesItsCrc16 := fun _ _ _ =>
  runSteps_of_oneMessage

/-- Settles O41: the register holds the CRC of the whole frame, which the residue theorem judges. -/
theorem zeroOutputJudgesTheWholeFrame : Obligations.ZeroOutputJudgesTheWholeFrame := by
  refine fun s xs rest data lo hi hxs hs hbytes => ⟨_, runSteps_of_oneMessage hxs hs, ?verdict⟩
  case verdict => rw [zeroFlag_eq_true_iff, hbytes, crc16_append_pair_eq_zero_iff]

end Sys2Proof.Proofs
end

section
/-! The table (R25) and the update (R54, R56, R57): linearity, the inverse, and the update as gates. -/

namespace Sys2Proof.Proofs

open Sys2Proof.Machine Sys2Proof.Laws

/-! ### The structure of the table (R25) -/

/-- Reductions are linear, and so is the table they fill. -/
theorem tableRead_xor (a b : Byte) : tableRead (a ^^^ b) = tableRead a ^^^ tableRead b := by
  simp only [tableRead_eq_step8, zext16_xor, step8_xor]

/-- Settles O29: the table is filled by reductions, which are linear. -/
theorem tableIsLinear : Obligations.TableIsLinear :=
  tableRead_xor

/-- An entry's high byte determines its index: two indices with one high byte differ by an index whose high
byte is empty. -/
theorem highByte_tableRead_injective : Function.Injective fun i : Byte => highByte (tableRead i) := by
  intro i j h
  rwa [← BitVec.xor_eq_zero_iff, ← highByte_xor, ← tableRead_xor, highByte_tableRead_eq_zero_iff,
    BitVec.xor_eq_zero_iff] at h

theorem highByte_tableRead_surjective : Function.Surjective fun i : Byte => highByte (tableRead i) :=
  Finite.surjective_of_injective highByte_tableRead_injective

theorem eq_zero_of_tableRead_eq_zero {i : Byte} (h : tableRead i = 0x0000#16) : i = 0x00#8 :=
  (highByte_tableRead_eq_zero_iff i).1 ((word_eq_zero_iff _).1 h).1

/-- Eight reductions of a byte never reach bits 5 to 1. -/
theorem lowByte_step8_and_mask : ∀ i : Byte, lowByte (step8 (zext16 i)) &&& 0x3E#8 = 0x00#8 := by
  decide

/-- How many entries have the low byte `v`. -/
theorem length_filter_lowByte : ∀ v ∈ [0x00#8, 0x01#8, 0x40#8, 0x41#8, 0x80#8, 0x81#8, 0xC0#8, 0xC1#8],
    (tableRom.filter fun e => lowByte e == v).length = 32 := by
  decide

/-- Each quarter of the ROM XORs to zero. -/
theorem foldl_xor_quarter : ∀ q ∈ [tableRom0, tableRom1, tableRom2, tableRom3],
    q.foldl (· ^^^ ·) 0x0000#16 = 0x0000#16 := by
  decide

theorem foldl_xor_tableRom : tableRom.foldl (· ^^^ ·) 0x0000#16 = 0x0000#16 := by
  have h := foldl_xor_quarter
  simp only [List.forall_mem_cons] at h
  obtain ⟨h₀, h₁, h₂, h₃, -⟩ := h
  rw [tableRom, List.foldl_append, List.foldl_append, List.foldl_append, h₀, h₁, h₂, h₃]

/-- Settles O28: the high bytes are a permutation of the bytes; the other facts are counted on the ROM. -/
theorem tableStructure : Obligations.TableStructure := by
  refine ⟨tableRead_zero, by decide, by decide, by decide, fun _ _ h => highByte_tableRead_injective h,
    highByte_tableRead_surjective, fun _ => eq_zero_of_tableRead_eq_zero, fun i => ?mask, length_filter_lowByte,
    foldl_xor_tableRom⟩
  case mask => rw [tableRead_eq_step8, lowByte_step8_and_mask]

/-! ### Linearity of the update (R56) -/

/-- The byte reaches the update only through its XOR with the register. -/
theorem crcUpdate_eq_crcUpdate_xor_zext16 (c : Word) (b : Byte) :
    crcUpdate c b = crcUpdate (c ^^^ zext16 b) 0x00#8 := by
  rw [crcUpdate_eq_step8, crcUpdate_eq_step8, BitVec.xor_assoc, ← zext16_xor, BitVec.xor_zero]

/-- Settles O32: the update is eight reductions of the XOR of the register and the byte. -/
theorem updateIsLinear : Obligations.UpdateIsLinear :=
  ⟨crcUpdate_xor, crcUpdate_zero_zero, crcUpdate_eq_crcUpdate_xor_zext16⟩

/-! ### The inverse of the update (R57) -/

theorem getElem_tableRom {j : Nat} (hj : j < tableRom.length) :
    tableRom[j] = tableRead (BitVec.ofNat 8 j) := by
  have hj' : j < 2 ^ 8 := hj.trans_eq tableRom_length
  simp only [tableRead, BitVec.toNat_ofNat, Nat.mod_eq_of_lt hj']

/-- The search for a high byte finds the index it belongs to: no earlier entry has the same. -/
@[simp] theorem tableIndexOfHigh_highByte_tableRead (i : Byte) :
    tableIndexOfHigh (highByte (tableRead i)) = i := by
  have hi : i.toNat < tableRom.length := i.isLt.trans_eq tableRom_length.symm
  have hfind : tableRom.findIdx (fun v => highByte v == highByte (tableRead i)) = i.toNat := by
    rw [List.findIdx_eq hi]
    refine ⟨beq_self_eq_true _, fun j hj => beq_eq_false_iff_ne.2 fun h => ?_⟩
    rw [getElem_tableRom] at h
    have hji := congrArg BitVec.toNat (highByte_tableRead_injective h)
    rw [BitVec.toNat_ofNat, Nat.mod_eq_of_lt (hj.trans i.isLt)] at hji
    exact hj.ne hji
  rw [tableIndexOfHigh, hfind, BitVec.ofNat_toNat, BitVec.setWidth_eq]

@[simp] theorem highByte_tableRead_tableIndexOfHigh (h : Byte) :
    highByte (tableRead (tableIndexOfHigh h)) = h := by
  obtain ⟨i, rfl⟩ := highByte_tableRead_surjective h
  rw [tableIndexOfHigh_highByte_tableRead]

/-- The new high byte tells the index, and with it what was XORed to the old high byte and the old low
byte. -/
theorem crcUnupdate_crcUpdate (c : Word) (b : Byte) : crcUnupdate (crcUpdate c b) b = c := by
  have hidx : tableIndexOfHigh (highByte (crcUpdate c b)) = tableIndex c b := by
    rw [highByte_crcUpdate, tableIndexOfHigh_highByte_tableRead]
  have hhigh : lowByte (crcUpdate c b ^^^ tableRead (tableIndex c b)) = highByte c := by
    rw [crcUpdate, BitVec.xor_assoc, BitVec.xor_self, BitVec.xor_zero, lowByte_shiftRight_eight]
  have hlow : tableIndex c b ^^^ b = lowByte c := by
    rw [tableIndex, BitVec.xor_assoc, BitVec.xor_self, BitVec.xor_zero]
  simp only [crcUnupdate, hidx, hhigh, hlow, joinBytes_bytes]

/-- The index that the byte makes of the old register is the one the new high byte tells. -/
theorem tableIndex_crcUnupdate (n : Word) (b : Byte) :
    tableIndex (crcUnupdate n b) b = tableIndexOfHigh (highByte n) := by
  rw [crcUnupdate, tableIndex, lowByte_joinBytes, BitVec.xor_assoc, BitVec.xor_self, BitVec.xor_zero]

theorem crcUpdate_crcUnupdate (n : Word) (b : Byte) : crcUpdate (crcUnupdate n b) b = n := by
  apply word_ext
  · rw [highByte_crcUpdate, tableIndex_crcUnupdate, highByte_tableRead_tableIndexOfHigh]
  · rw [crcUpdate, tableIndex_crcUnupdate, lowByte_xor, lowByte_shiftRight_eight, crcUnupdate,
      highByte_joinBytes, lowByte_xor, BitVec.xor_assoc, BitVec.xor_self, BitVec.xor_zero]

/-- Settles O33: the high byte of the result tells the table index both ways. -/
theorem unupdateInvertsUpdate : Obligations.UnupdateInvertsUpdate :=
  ⟨crcUnupdate_crcUpdate, crcUpdate_crcUnupdate, fun c b b' => (crcUpdate_right_inj c b b').1⟩

/-! ### The update as a network of gates (R54) -/

theorem getLsbD_zext16 (b : Byte) (k : Nat) : (zext16 b).getLsbD k = b.getLsbD k := by
  rw [zext16, BitVec.getLsbD_setWidth]
  by_cases hk : k < 16
  · rw [decide_eq_true hk, Bool.true_and]
  · rw [BitVec.getLsbD_of_ge b k (by omega), Bool.and_false]

/-- The gates see the low byte and the operand only as the table index, and XOR the high byte in below. -/
theorem crcXorUpdate_eq_xor (c : Word) (b : Byte) :
    crcXorUpdate c b = (c >>> 8) ^^^ crcXorUpdate (zext16 (tableIndex c b)) 0x00#8 := by
  have hlow {k : Nat} (hk : k < 8) : (c.getLsbD k ^^ b.getLsbD k) = (zext16 (tableIndex c b)).getLsbD k := by
    rw [getLsbD_zext16, getLsbD_tableIndex c b hk]
  have hhigh {k : Nat} (hk : 8 ≤ k) : (zext16 (tableIndex c b)).getLsbD k = false := by
    rw [getLsbD_zext16, BitVec.getLsbD_of_ge _ k hk]
  apply BitVec.eq_of_getLsbD_eq
  intro k hk
  simp only [crcXorUpdate, BitVec.getLsbD_ofBoolListLE, xorEquations, BitVec.getLsbD_xor]
  simp only [hlow, hhigh, Nat.reduceLT, Nat.reduceLeDiff, BitVec.getLsbD_zero, Bool.xor_false]
  interval_cases k <;> simp [Bool.xor_comm]

/-- On the 256 table indices the gates compute the eight reductions. -/
theorem crcXorUpdate_zext16 : ∀ i : Byte, crcXorUpdate (zext16 i) 0x00#8 = step8 (zext16 i) := by
  decide

/-- Settles O31: beside the shifted high byte the gates compute the table entry. -/
theorem xorNetworkEqualsTableUpdate : Obligations.XorNetworkEqualsTableUpdate := by
  intro c b
  rw [crcXorUpdate_eq_xor, crcXorUpdate_zext16, ← tableRead_eq_step8, crcUpdate]

end Sys2Proof.Proofs
end

section
/-! UPD and INITUPD (R52, R53), two UPDs from any register (R57), and the laws of command sequences (R62). -/

namespace Sys2Proof.Proofs

open Sys2Proof.Machine Sys2Proof.Laws

/-! ### UPD (R52) -/

/-- Settles O20: the new register is 0x0000 exactly from a register that holds the byte and nothing above
it. -/
theorem updConsumesItsByte : Obligations.UpdConsumesItsByte :=
  ⟨fun b => ⟨decode_commandWord_upd b, rfl⟩, fun s b =>
    ⟨_, exec_upd b s, rfl, zeroFlag_eq_true_iff _, crcUpdate_eq_zero_iff s.crc b⟩⟩

/-- UPD from a known register. -/
theorem exec_upd_of_crc {s : State} {c v : Word} {b : Byte} (hs : s.crc = c) (h : crcUpdate c b = v) :
    exec (.upd b) s = .next { s with crc := v } := by
  rw [exec_upd, hs, h, State.writeCrc]

/-- Settles O21: a row's last column is the update of its first two, by its third and fourth. -/
theorem updCornerCasesComeOutAsListed : Obligations.UpdCornerCasesComeOutAsListed := by
  intro row hrow
  fin_cases hrow <;> exact ⟨by decide, by decide, fun s hs => exec_upd_of_crc hs (by decide)⟩

/-! ### INITUPD (R53) -/

/-- The seed has a high byte, so no first byte brings the register to 0x0000. -/
theorem crcUpdate_seed_ne_zero (b : Byte) : crcUpdate Config.seed b ≠ 0x0000#16 := by
  rw [Ne, crcUpdate_eq_zero_iff]
  exact fun h => absurd h.1 (by decide)

/-- INITUPD is INIT and then UPD, in every state. -/
theorem exec_upd_of_init (s : State) (b : Byte) :
    exec (.upd b) (s.writeCrc Config.seed) = exec (.initupd b) s := by
  rw [exec_upd, exec_initupd, writeCrc_crc, writeCrc_writeCrc]

/-- Settles O22: INITUPD is the update of the seed, which is never 0x0000. -/
theorem initupdSeedsThenConsumes : Obligations.InitupdSeedsThenConsumes := by
  refine ⟨fun b => ⟨decode_commandWord_initupd b, rfl⟩, fun s b =>
    ⟨_, _, exec_initupd b s, rfl, rfl, ?zero, exec_init s, ?fusion⟩⟩
  case zero =>
    rw [Bool.eq_false_iff, Ne, zeroFlag_eq_true_iff, writeCrc_crc]
    exact crcUpdate_seed_ne_zero b
  case fusion => rw [exec_upd_of_init, exec_initupd]

/-! ### Two UPDs reach every value once (R12, R57) -/

/-- Two bytes take `c` to `v` exactly where they are the bytes in which `c` differs from the register that two
zero bytes take to `v`. -/
theorem crcUpdate_crcUpdate_eq_iff (c v : Word) (b₁ b₂ : Byte) :
    crcUpdate (crcUpdate c b₁) b₂ = v ↔
      b₁ = lowByte (c ^^^ crcUnupdate (crcUnupdate v 0x00#8) 0x00#8) ∧
      b₂ = highByte (c ^^^ crcUnupdate (crcUnupdate v 0x00#8) 0x00#8) := by
  generalize hu : crcUnupdate (crcUnupdate v 0x00#8) 0x00#8 = u
  have hv : crcUpdate (crcUpdate u 0x00#8) 0x00#8 = v := by
    rw [← hu, crcUpdate_crcUnupdate, crcUpdate_crcUnupdate]
  rw [← crcUpdate_crcUpdate_eq_zero_iff, ← hv, ← BitVec.xor_eq_zero_iff, ← crcUpdate_xor, ← crcUpdate_xor,
    BitVec.xor_zero, BitVec.xor_zero]

/-- Settles O34: the two bytes that take the seed to `v` are given by an equivalence. -/
theorem everyValueIsTwoUpdsFromTheSeed : Obligations.EveryValueIsTwoUpdsFromTheSeed := by
  intro v
  have hpair := crcUpdate_crcUpdate_eq_iff Config.seed v
  refine ⟨_, _, fun s hs => ⟨_, exec_upd_of_crc hs rfl, ?reached⟩, fun b₁ b₂ => (hpair b₁ b₂).1⟩
  case reached => exact exec_upd_of_crc rfl ((hpair _ _).2 ⟨rfl, rfl⟩)

/-! ### Command sequences (R62) -/

@[simp] theorem nextCrc_resetInput (c : Word) (w : CmdWord) : nextCrc c (resetInput w) = Config.seed :=
  nextCrc_of_rst c rfl

/-- Settles O40: each law compares the one expression on the last inputs; the two examples of order and the
repeated byte are evaluated. -/
theorem commandSequenceLaws : Obligations.CommandSequenceLaws := by
  refine ⟨fun c x b w => ?laws, by decide, by decide, 0x0000#16, 0x01#8, by decide⟩
  case laws => simp only [runCrc_cons, runCrc_nil, nextCrc_hold, nextCrc_init, nextCrc_upd, nextCrc_initupd,
    nextCrc_resetInput, and_self]

end Sys2Proof.Proofs
end

section
/-! The two forms of VERIFY agree (R73, R74). -/

namespace Sys2Proof.Proofs

open Sys2Proof.Machine Sys2Proof.Laws

/-- A frame with room for a CRC field ends in two bytes. -/
theorem exists_eq_append_pair {frame : List Byte} (h : 2 ≤ frame.length) :
    ∃ data lo hi, frame = data ++ [lo, hi] := by
  have hlen : (frame.drop (frame.length - 2)).length = 2 := by
    rw [List.length_drop]
    omega
  obtain ⟨lo, hi, hpair⟩ := List.length_eq_two.1 hlen
  exact ⟨frame.take (frame.length - 2), lo, hi, by rw [← hpair, List.take_append_drop]⟩

theorem verifyByResidue_of_length_lt_two {frame : List Byte} (h : frame.length < 2) :
    verifyByResidue frame = false := by
  rw [verifyByResidue, decide_eq_false h.not_ge, Bool.false_and]

/-- On a frame with a CRC field both forms ask for the two bytes of the CRC; a shorter one both reject. -/
theorem verifyByComparison_eq_verifyByResidue (frame : List Byte) :
    verifyByComparison frame = verifyByResidue frame := by
  rcases Nat.lt_or_ge frame.length 2 with hshort | hlong
  · rw [verifyByComparison_of_length_lt_two hshort, verifyByResidue_of_length_lt_two hshort]
  · obtain ⟨data, lo, hi, rfl⟩ := exists_eq_append_pair hlong
    rw [Bool.eq_iff_iff, verifyByComparison_append_pair, verifyByResidue_append_pair,
      crc16_append_pair_eq_zero_iff, eq_joinBytes_iff, eq_comm (a := lo), eq_comm (a := hi)]

@[simp] theorem verifyByResidue_frameOf (data : List Byte) : verifyByResidue (frameOf data) = true :=
  (verifyByResidue_append_pair data _ _).2 ((crc16_append_pair_eq_zero_iff data _ _).2 ⟨rfl, rfl⟩)

@[simp] theorem verifyByComparison_frameOf (data : List Byte) : verifyByComparison (frameOf data) = true := by
  rw [verifyByComparison_eq_verifyByResidue, verifyByResidue_frameOf]

/-- Settles O49: the residue theorem turns the residue form into the comparison. -/
theorem bothVerifiersAgree : Obligations.BothVerifiersAgree :=
  ⟨verifyByComparison_eq_verifyByResidue, verifyByResidue_frameOf⟩

end Sys2Proof.Proofs
end

section
/-! The host's byte buffer: reads of a range (R26), the entry points over it (R68, R76), and APPEND (R72). -/

namespace Sys2Proof.Proofs

open Sys2Proof.Machine Sys2Proof.Laws

/-! ### Ranges inside a buffer -/

theorem inside_mono {m : Memory} {a n a' n' : Nat} (h : m.inside a n) (ha : a ≤ a') (hn : a' + n' ≤ a + n) :
    m.inside a' n' := by
  obtain ⟨b, hb, hh⟩ := h
  exact ⟨b, hb, by omega⟩

/-- The extents of the buffers alone decide which ranges are inside one. -/
theorem inside_iff_extents (m : Memory) (a n : Nat) :
    m.inside a n ↔ ∃ e ∈ m.map fun b => (b.base, b.bytes.length), e.1 ≤ a ∧ a + n ≤ e.1 + e.2 := by
  simp [Memory.inside]

/-- A write leaves every range inside its buffer. -/
theorem inside_memWrite_iff {m m' : Memory} {a : Nat} {v : Byte} (h : memWrite m a v = some m') (a' n : Nat) :
    m'.inside a' n ↔ m.inside a' n := by
  rw [inside_iff_extents, inside_iff_extents, memWrite_extents h]

theorem exists_memWrite_eq_some {m : Memory} {a : Nat} (h : m.inside a 1) (v : Byte) :
    ∃ m', memWrite m a v = some m' :=
  Option.isSome_iff_exists.1 ((memWrite_isSome m a v).2 h)

/-! ### Reading a range (R26) -/

theorem inside_of_memReadRange {m : Memory} {a n : Nat} {bs : List Byte} (h : memReadRange m a n = some bs) :
    m.inside a n := by
  rw [← memReadRange_isSome, h, Option.isSome_some]

theorem exists_memReadRange_eq_some {m : Memory} {a n : Nat} (h : m.inside a n) :
    ∃ bs, memReadRange m a n = some bs :=
  Option.isSome_iff_exists.1 ((memReadRange_isSome m a n).2 h)

theorem memReadRange_eq_none {m : Memory} {a n : Nat} (h : ¬ m.inside a n) : memReadRange m a n = none := by
  rwa [← memReadRange_isSome, Option.not_isSome_iff_eq_none] at h

/-- A range that is read gives one byte for each of its places. -/
theorem length_of_memReadRange {m : Memory} {a n : Nat} {bs : List Byte} (h : memReadRange m a n = some bs) :
    bs.length = n := by
  unfold memReadRange at h
  split at h
  next b hb =>
    obtain rfl := Option.some.inj h
    obtain ⟨-, hh⟩ := bufferOf_holds hb
    rw [List.length_take, List.length_drop]
    omega
  next => cases h

/-- In a canonical memory the bytes of a range are those its addresses read. -/
theorem getElem?_of_memReadRange {m : Memory} (hm : m.wf) {a n i : Nat} {bs : List Byte}
    (h : memReadRange m a n = some bs) (hi : i < n) : bs[i]? = memRead m (a + i) := by
  unfold memReadRange at h
  split at h
  next b hb =>
    obtain rfl := Option.some.inj h
    obtain ⟨hmem, hh⟩ := bufferOf_holds hb
    have hidx : a + i - b.base = a - b.base + i := by omega
    rw [memRead_of_holds hm hmem (by omega), List.getElem?_take_of_lt hi, List.getElem?_drop, hidx]
  next => cases h

/-- In a canonical memory a range inside a buffer reads as the bytes at its addresses, and no other. -/
theorem memReadRange_eq_some_iff {m : Memory} (hm : m.wf) {a n : Nat} {bs : List Byte} :
    memReadRange m a n = some bs ↔
      m.inside a n ∧ bs.length = n ∧ ∀ i, i < n → memRead m (a + i) = bs[i]? := by
  constructor
  · intro h
    exact ⟨inside_of_memReadRange h, length_of_memReadRange h, fun i hi => (getElem?_of_memReadRange hm h hi).symm⟩
  · rintro ⟨hin, hlen, hread⟩
    obtain ⟨cs, hcs⟩ := exists_memReadRange_eq_some hin
    have hcslen := length_of_memReadRange hcs
    rw [hcs, Option.some.injEq]
    apply List.ext_getElem?
    intro i
    by_cases hi : i < n
    · rw [getElem?_of_memReadRange hm hcs hi, hread i hi]
    · rw [List.getElem?_eq_none (by omega), List.getElem?_eq_none (by omega)]

/-- Settles O53: a range inside a buffer reads as the bytes at its addresses, and each of them has one. -/
theorem bufferIsReadInAscendingOrder : Obligations.BufferIsReadInAscendingOrder := by
  intro m a n bs hm
  rw [memReadRange_eq_some_iff hm]
  refine and_congr_right fun _ => and_congr_right fun hlen => forall₂_congr fun i hi => ?byte
  case byte =>
    rw [List.getElem?_eq_getElem (hlen ▸ hi)]
    simp

/-- In a canonical memory the first places of a range read as its first bytes. -/
theorem memReadRange_take {m : Memory} (hm : m.wf) {a n k : Nat} {bs : List Byte} (hk : k ≤ n)
    (h : memReadRange m a n = some bs) : memReadRange m a k = some (bs.take k) := by
  obtain ⟨hin, hlen, hread⟩ := (memReadRange_eq_some_iff hm).1 h
  refine (memReadRange_eq_some_iff hm).2
    ⟨inside_mono hin le_rfl (by omega), List.length_take_of_le (hlen ▸ hk), fun i hi => ?_⟩
  rw [hread i (hi.trans_le hk), List.getElem?_take_of_lt hi]

/-! ### The entry points (R68 to R71, R76) -/

theorem bufferBytes_of_memReadRange {m : Memory} {a n : Nat} {bs : List Byte}
    (h : memReadRange m a n = some bs) : bufferBytes m (some a) n = .ok bs := by
  cases n with
  | zero => rw [bufferBytes_zero, List.eq_nil_of_length_eq_zero (length_of_memReadRange h)]
  | succ n => rw [bufferBytes, h]

theorem bufferBytes_of_not_inside {m : Memory} {a n : Nat} (hn : n ≠ 0) (h : ¬ m.inside a n) :
    bufferBytes m (some a) n = .error .outsideBuffer := by
  cases n with
  | zero => exact absurd rfl hn
  | succ n => rw [bufferBytes, memReadRange_eq_none h]

theorem bufferBytes_null (m : Memory) {n : Nat} (hn : n ≠ 0) : bufferBytes m none n = .error .nullBuffer := by
  cases n with
  | zero => exact absurd rfl hn
  | succ n => rfl

theorem modbusCrcCheckTable_of_memReadRange {m : Memory} {a n : Nat} {bs : List Byte}
    (h : memReadRange m a n = some bs) : modbusCrcCheckTable m (some a) n = .ok (crc16 bs) := by
  rw [modbusCrcCheckTable, bufferBytes_of_memReadRange h, Except.map]

theorem modbusCrcCheckTable_of_not_inside {m : Memory} {a n : Nat} (hn : n ≠ 0) (h : ¬ m.inside a n) :
    modbusCrcCheckTable m (some a) n = .error .outsideBuffer := by
  rw [modbusCrcCheckTable, bufferBytes_of_not_inside hn h, Except.map]

theorem modbusCrcCheckTable_null (m : Memory) {n : Nat} (hn : n ≠ 0) :
    modbusCrcCheckTable m none n = .error .nullBuffer := by
  rw [modbusCrcCheckTable, bufferBytes_null m hn, Except.map]

theorem crc16_example : crc16 [0x01#8, 0x03#8, 0x00#8, 0x00#8, 0x00#8, 0x0A#8] = 0xCDC5#16 := rfl

/-- Settles O52: the range is read as the given bytes, whose CRC is the result. -/
theorem checkTableComputesOverExactlyItsBytes : Obligations.CheckTableComputesOverExactlyItsBytes := by
  refine ⟨fun m a bs hm hin hread => ?range, crc16_example⟩
  case range =>
    rcases hin with rfl | hin
    · exact modbusCrcCheckTable_zero m (some a)
    · exact modbusCrcCheckTable_of_memReadRange ((memReadRange_eq_some_iff hm).2 ⟨hin, rfl, hread⟩)

theorem not_inside_of_memRead_eq_none {m : Memory} {a n i : Nat} (hi : i < n) (h : memRead m (a + i) = none) :
    ¬ m.inside a n := by
  intro hin
  have hsome := (memRead_isSome m (a + i)).2 (inside_mono hin (by omega) (by omega))
  rw [h] at hsome
  cases hsome

theorem not_inside_abutting (a : Nat) (b c : Byte) :
    ¬ Memory.inside [{ base := a, bytes := [b] }, { base := a + 1, bytes := [c] }] a 2 := by
  simp [Memory.inside]

/-- Settles O54: the three entry points are one function, which is refused exactly for a null buffer or a range
outside every buffer. -/
theorem callsOutsideABufferAreRefused : Obligations.CallsOutsideABufferAreRefused := by
  intro f hf
  obtain rfl : f = modbusCrcCheckTable := by simpa using hf
  refine ⟨modbusCrcCheckTable_zero, fun m n => modbusCrcCheckTable_null m, fun m a n i hi h => ?unreadable,
    fun m a n => modbusCrcCheckTable_of_not_inside, fun m a n hin => ?inside, fun a b c => ?abutting⟩
  case unreadable =>
    exact modbusCrcCheckTable_of_not_inside (Nat.ne_zero_of_lt hi) (not_inside_of_memRead_eq_none hi h)
  case inside =>
    obtain ⟨bs, hbs⟩ := exists_memReadRange_eq_some hin
    exact ⟨crc16 bs, modbusCrcCheckTable_of_memReadRange hbs⟩
  case abutting => exact modbusCrcCheckTable_of_not_inside (by decide) (not_inside_abutting a b c)

/-! ### APPEND (R72) -/

/-- What APPEND answers: with the data read, two writes behind it, the low byte first. -/
theorem appendCrc_eq_ok_iff {m m' : Memory} {frame n : Nat} :
    appendCrc m frame n = .ok m' ↔ ∃ bs m₁, memReadRange m frame (n + 2) = some bs ∧
      memWrite m (frame + n) (lowByte (crc16 (bs.take n))) = some m₁ ∧
      memWrite m₁ (frame + n + 1) (highByte (crc16 (bs.take n))) = some m' := by
  unfold appendCrc
  cases memReadRange m frame (n + 2) with
  | none => simp
  | some bs =>
    cases h₁ : memWrite m (frame + n) (lowByte (crc16 (bs.take n))) with
    | none => simp [h₁]
    | some m₁ =>
      cases h₂ : memWrite m₁ (frame + n + 1) (highByte (crc16 (bs.take n))) with
      | none => simp [h₁, h₂]
      | some m₂ => simp [h₁, h₂]

/-- With the data and two more places inside a buffer APPEND completes. -/
theorem exists_appendCrc_eq_ok {m : Memory} {frame n : Nat} (h : m.inside frame (n + 2)) :
    ∃ m', appendCrc m frame n = .ok m' := by
  obtain ⟨bs, hbs⟩ := exists_memReadRange_eq_some h
  have hlow : m.inside (frame + n) 1 := inside_mono h (by omega) (by omega)
  have hhigh : m.inside (frame + n + 1) 1 := inside_mono h (by omega) (by omega)
  obtain ⟨m₁, h₁⟩ := exists_memWrite_eq_some hlow (lowByte (crc16 (bs.take n)))
  obtain ⟨m₂, h₂⟩ := exists_memWrite_eq_some ((inside_memWrite_iff h₁ _ _).2 hhigh) (highByte (crc16 (bs.take n)))
  exact ⟨m₂, appendCrc_eq_ok_iff.2 ⟨bs, m₁, hbs, h₁, h₂⟩⟩

theorem inside_of_appendCrc {m m' : Memory} {frame n : Nat} (h : appendCrc m frame n = .ok m') :
    m.inside frame (n + 2) := by
  obtain ⟨bs, m₁, hbs, -, -⟩ := appendCrc_eq_ok_iff.1 h
  exact inside_of_memReadRange hbs

theorem inside_appendCrc_iff {m m' : Memory} {frame n : Nat} (h : appendCrc m frame n = .ok m') (a k : Nat) :
    m'.inside a k ↔ m.inside a k := by
  obtain ⟨bs, m₁, -, h₁, h₂⟩ := appendCrc_eq_ok_iff.1 h
  rw [inside_memWrite_iff h₂, inside_memWrite_iff h₁]

theorem appendCrc_of_not_inside {m : Memory} {frame n : Nat} (h : ¬ m.inside frame (n + 2)) :
    appendCrc m frame n = .error .outsideBuffer := by
  rw [appendCrc, memReadRange_eq_none h]

/-- After APPEND the two places behind the data read as the low and the high byte of its CRC, and every other
address as before. -/
theorem memRead_appendCrc {m m' : Memory} (hm : m.wf) {frame n : Nat} {data : List Byte}
    (hdata : memReadRange m frame n = some data) (h : appendCrc m frame n = .ok m') (a : Nat) :
    memRead m' a = if a = frame + n + 1 then some (highByte (crc16 data))
      else if a = frame + n then some (lowByte (crc16 data)) else memRead m a := by
  obtain ⟨bs, m₁, hbs, h₁, h₂⟩ := appendCrc_eq_ok_iff.1 h
  have htake : bs.take n = data :=
    Option.some.inj ((memReadRange_take hm (Nat.le_add_right n 2) hbs).symm.trans hdata)
  rw [memRead_memWrite h₂, memRead_memWrite h₁, htake]

/-- The data and its two CRC bytes stand in the buffer after APPEND. -/
theorem memReadRange_appendCrc {m m' : Memory} (hm : m.wf) {frame n : Nat} {data : List Byte}
    (hdata : memReadRange m frame n = some data) (h : appendCrc m frame n = .ok m') :
    memReadRange m' frame (n + 2) = some (frameOf data) := by
  have hlen := length_of_memReadRange hdata
  rw [memReadRange_eq_some_iff (appendCrc_wf h hm)]
  refine ⟨(inside_appendCrc_iff h _ _).2 (inside_of_appendCrc h), by simp [frameOf, crcBytes, hlen], fun i hi => ?_⟩
  rw [memRead_appendCrc hm hdata h, frameOf]
  obtain hlt | rfl | rfl : i < n ∨ i = n ∨ i = n + 1 := by omega
  · rw [if_neg (by omega), if_neg (by omega), ← getElem?_of_memReadRange hm hdata hlt,
      List.getElem?_append_left (hlen.symm ▸ hlt)]
  · rw [if_neg (by omega), if_pos rfl, List.getElem?_append_right hlen.le, hlen, Nat.sub_self]
    rfl
  · rw [if_pos (by omega), List.getElem?_append_right (by omega), hlen, Nat.add_sub_cancel_left]
    rfl

/-- Settles O55: two writes answer where the data and two more places are inside a buffer, and touch these two
addresses alone. -/
theorem appendWritesTheCrcLowByteFirst : Obligations.AppendWritesTheCrcLowByteFirst := by
  refine ⟨fun m frame n data hm hin hdata => ?completes, fun m frame n => appendCrc_of_not_inside,
    fun s => ⟨highByte_crcWire s, lowByte_crcWire s⟩, ?sample⟩
  case completes =>
    obtain ⟨m', h⟩ := exists_appendCrc_eq_ok hin
    have hread := memRead_appendCrc hm hdata h
    refine ⟨m', h, ?low, ?high, fun a hlow hhigh => ?others⟩
    case low => rw [hread, if_neg (by omega), if_pos rfl]
    case high => rw [hread, if_pos rfl]
    case others => rw [hread, if_neg hhigh, if_neg hlow]
  case sample =>
    rw [frameOf, crc16_example]
    rfl

/-- Settles O56: what stands in the buffer after APPEND is the frame of the data, which both forms accept. -/
theorem appendedFrameVerifiesInTheBuffer : Obligations.AppendedFrameVerifiesInTheBuffer := by
  intro m m' frame n hm h
  have hin : m.inside frame n := inside_mono (inside_of_appendCrc h) le_rfl (by omega)
  obtain ⟨data, hdata⟩ := exists_memReadRange_eq_some hin
  have hframe := bufferBytes_of_memReadRange (memReadRange_appendCrc hm hdata h)
  rw [bufferVerifyByResidue, bufferVerifyByComparison, hframe, Except.map, Except.map, verifyByResidue_frameOf,
    verifyByComparison_frameOf]
  exact ⟨rfl, rfl⟩

end Sys2Proof.Proofs
end

section
/-! Listings (R46, R47): the line written for an item is its mnemonic and its operands, and reads back. -/

namespace Sys2Proof.Proofs

open Sys2Proof.Machine Sys2Proof.Laws

/-! ### Operands -/

theorem hexDigit_hexChar : ∀ d : BitVec 4, hexDigit (hexChar d) = some d := by
  decide

/-- A byte is its two hexadecimal digits. -/
theorem append_digits (b : Byte) : b.extractLsb' 4 4 ++ b.extractLsb' 0 4 = b := by
  revert b
  decide

@[simp] theorem parseByte_byteText (b : Byte) : parseByte (byteText b) = some b := by
  simp only [byteText, parseByte, hexDigit_hexChar, append_digits]

@[simp] theorem parseBytes_map_byteText (bs : List Byte) : parseBytes (bs.map byteText) = some bs := by
  induction bs with
  | nil => rfl
  | cons b bs ih => rw [List.map_cons, parseBytes, parseByte_byteText, ih]

/-! ### The words of a line -/

/-- A character that neither separates words nor starts a comment. -/
def isWordChar (c : Char) : Bool := !isBlankChar c && c != ';'

/-- A text that the line reader keeps together as one word. -/
def IsWord (w : List Char) : Prop := w ≠ [] ∧ ∀ c ∈ w, isWordChar c = true

theorem isWordChar_iff (c : Char) : isWordChar c = true ↔ isBlankChar c = false ∧ c ≠ ';' := by
  simp [isWordChar]

theorem isWordChar_hexChar : ∀ d : BitVec 4, isWordChar (hexChar d) = true := by
  decide

theorem isWord_byteText (b : Byte) : IsWord (byteText b) := by
  refine ⟨List.cons_ne_nil _ _, ?_⟩
  simp only [byteText, List.forall_mem_cons]
  exact ⟨rfl, rfl, isWordChar_hexChar _, isWordChar_hexChar _, nofun⟩

theorem dropComment_append {w : List Char} (h : ∀ c ∈ w, isWordChar c = true) (rest : List Char) :
    dropComment (w ++ rest) = w ++ dropComment rest := by
  induction w with
  | nil => rfl
  | cons c w ih =>
    obtain ⟨hc, hw⟩ := List.forall_mem_cons.1 h
    rw [List.cons_append, dropComment, if_neg ((isWordChar_iff c).1 hc).2, ih hw, List.cons_append]

/-- Operands hold no comment. -/
theorem dropComment_bytesText (bs : List Byte) : dropComment (bytesText bs) = bytesText bs := by
  induction bs with
  | nil => rfl
  | cons b bs ih =>
    rw [bytesText, dropComment, if_neg (by decide), dropComment_append (isWord_byteText b).2, ih]

theorem splitText_cons_of_word {w : List Char} (h : ∀ c ∈ w, isWordChar c = true) {t : List Char}
    {v : List Char} {vs : List (List Char)} (ht : splitText isBlankChar t = v :: vs) :
    splitText isBlankChar (w ++ t) = (w ++ v) :: vs := by
  induction w with
  | nil => exact ht
  | cons c w ih =>
    obtain ⟨hc, hw⟩ := List.forall_mem_cons.1 h
    have hblank := ((isWordChar_iff c).1 hc).1
    rw [List.cons_append, splitText, hblank, if_neg Bool.false_ne_true, ih hw, List.cons_append]

/-- Each operand begins behind one space, so the text before the first of them ends the word before it. -/
theorem splitText_bytesText (bs : List Byte) :
    splitText isBlankChar (bytesText bs) = [] :: bs.map byteText := by
  induction bs with
  | nil => rfl
  | cons b bs ih =>
    rw [bytesText, splitText, if_pos (by decide), splitText_cons_of_word (isWord_byteText b).2 ih,
      List.append_nil, List.map_cons]

/-- The words of a line are its mnemonic and its operands. -/
theorem lineWords_append_bytesText {w : List Char} (h : IsWord w) (bs : List Byte) :
    lineWords (w ++ bytesText bs) = w :: bs.map byteText := by
  obtain ⟨hne, hw⟩ := h
  rw [lineWords, dropComment_append hw, dropComment_bytesText,
    splitText_cons_of_word hw (splitText_bytesText bs), List.append_nil, List.filter_eq_self]
  refine List.forall_mem_cons.2 ⟨by simpa using hne, fun t ht => ?_⟩
  obtain ⟨b, -, rfl⟩ := List.mem_map.1 ht
  rfl

/-! ### Items -/

/-- The mnemonic of an item's line (R46, R47). -/
def itemMnemonic : ListingItem → List Char
  | .command .hold => ['H', 'O', 'L', 'D']
  | .command .init => ['I', 'N', 'I', 'T']
  | .command (.upd _) => ['U', 'P', 'D']
  | .command (.initupd _) => ['I', 'N', 'I', 'T', 'U', 'P', 'D']
  | .reset => ['R', 'E', 'S', 'E', 'T']
  | .msg _ => ['M', 'S', 'G']
  | .msgf _ _ => ['M', 'S', 'G', 'F']
  | .nop => ['N', 'O', 'P']
  | .chk _ _ _ => ['C', 'H', 'K']

/-- The operands of an item's line (R46, R47). -/
def itemOperands : ListingItem → List Byte
  | .command .hold => []
  | .command .init => []
  | .command (.upd b) => [b]
  | .command (.initupd b) => [b]
  | .reset => []
  | .msg bs => bs
  | .msgf b bs => b :: bs
  | .nop => []
  | .chk data lo hi => data ++ [lo, hi]

theorem itemText_eq (item : ListingItem) :
    itemText item = itemMnemonic item ++ bytesText (itemOperands item) := by
  rcases item with (_ | _ | b | b) | _ | bs | ⟨b, bs⟩ | _ | ⟨data, lo, hi⟩ <;> rfl

theorem isWord_itemMnemonic (item : ListingItem) : IsWord (itemMnemonic item) := by
  rcases item with (_ | _ | b | b) | _ | bs | ⟨b, bs⟩ | _ | ⟨data, lo, hi⟩ <;>
    exact ⟨List.cons_ne_nil _ _, List.all_eq_true.1 rfl⟩

/-- The last two operands of `CHK` are the trailer, and the ones before them the data (R47). -/
theorem parseItem_chk (data : List Byte) (lo hi : Byte) :
    parseItem ['C', 'H', 'K'] (data ++ [lo, hi]) = some (.chk data lo hi) := by
  unfold parseItem
  simp

/-- An item is what its mnemonic and its operands say. -/
theorem parseItem_itemMnemonic (item : ListingItem) :
    parseItem (itemMnemonic item) (itemOperands item) = some item := by
  rcases item with (_ | _ | b | b) | _ | bs | ⟨b, bs⟩ | _ | ⟨data, lo, hi⟩
  case chk => exact parseItem_chk data lo hi
  all_goals rfl

/-- Settles O43: the line's words are the item's mnemonic and operands, which read back one by one. -/
theorem listingLineReadsBackAsItsItem : Obligations.ListingLineReadsBackAsItsItem := by
  intro item
  rw [itemText_eq, parseLine, lineWords_append_bytesText (isWord_itemMnemonic item)]
  simp only [parseBytes_map_byteText, parseItem_itemMnemonic, Option.map_some]

/-- Settles O44: the listing is a closed text; only the word during RESET is open, and it is passed on. -/
theorem specListingAssembles : Obligations.SpecListingAssembles := fun _ => rfl

end Sys2Proof.Proofs
end
